-- ==== Sys2Proof/Word.lean ====
section
/-! DEFINITION. The words of the block: their widths are the fixed parameters of R6 (00_scope.md). -/

namespace Sys2Proof

/-- One data byte (`BYTE_W` = 8) or one symbol code (`SYM_W` = 8), R6. -/
abbrev Byte := BitVec 8

/-- A 6-bit value 0..63, the index of a symbol in an alphabet (R12). -/
abbrev Sextet := BitVec 6

/-- One 8-bit two's complement decode-table entry (`ENTRY_W` = 8), R6 and R97. -/
abbrev Entry := BitVec 8

/-- Host data and the length registers (`DATA_W` = `LEN_W` = 32), R6. -/
abbrev Data := BitVec 32

/-- A host register index (`ADDR_W` = 14), R6 and R22. -/
abbrev Addr := BitVec 14

end Sys2Proof
end

