-- ==== Sys2Proof/Syntax.lean ====
section
/-! DEFINITION. The operations of the block (R72), the fields of their one format `CMD8` (R70), and the
alias names of R80. No operation has an operand field: operands are registers and buffers (R71). -/

namespace Sys2Proof

/-- The two alphabets (R90); the `URL` bit of a command chooses one. -/
inductive Alphabet where
  | standard
  | urlSafe
deriving DecidableEq, Repr

/-- The `OP` field, `CMD[1:0]` (R70). -/
inductive Op where
  | enc
  | dec
  | encLen
  | decLen
deriving DecidableEq, Repr

/-- The fields of a command byte, format `CMD8` (R70). -/
structure Command where
  rsv : BitVec 4
  pad : Bool
  url : Bool
  op : Op
deriving DecidableEq, Repr

/-- The twelve operations, one constructor per row of the opcode table (R72), in the table's order. They
have no operand (R71; assumption 17, DESIGN CHOICE). -/
inductive Instr where
  | encStdNopad
  | decStdNopad
  | encLenNopad
  | decLenNopad
  | encUrlNopad
  | decUrlNopad
  | encStdPad
  | decStdPad
  | encLenPad
  | decLenPad
  | encUrlPad
  | decUrlPad
deriving DecidableEq, Repr

/-- The mnemonics of R72 and R79. -/
def Instr.mnemonic : Instr → String
  | .encStdNopad => "ENC.STD.NOPAD"
  | .decStdNopad => "DEC.STD.NOPAD"
  | .encLenNopad => "ENCLEN.NOPAD"
  | .decLenNopad => "DECLEN.NOPAD"
  | .encUrlNopad => "ENC.URL.NOPAD"
  | .decUrlNopad => "DEC.URL.NOPAD"
  | .encStdPad => "ENC.STD.PAD"
  | .decStdPad => "DEC.STD.PAD"
  | .encLenPad => "ENCLEN.PAD"
  | .decLenPad => "DECLEN.PAD"
  | .encUrlPad => "ENC.URL.PAD"
  | .decUrlPad => "DEC.URL.PAD"

/-- The pseudo-instructions of R80: the source's four public operations. -/
inductive Pseudo where
  | encode
  | encodeUrl
  | decode
  | decodeUrl
deriving DecidableEq, Repr

/-- What a pseudo-instruction expands to (R80). -/
def Pseudo.expand : Pseudo → Instr
  | .encode => .encStdPad
  | .encodeUrl => .encUrlNopad
  | .decode => .decStdPad
  | .decodeUrl => .decUrlNopad

/-- Why bytes are no command of R72. A reserved command byte (R74) is rejected for one of the first
two reasons; the machine then completes the operation with `ILLEGAL_CMD` (R75). -/
inductive Reject where
  /-- `RSV`, bits 7:4, is not 0000 -/
  | reservedBits
  /-- `URL` is 1 with a length operation -/
  | urlOnLength
  /-- there is no byte to decode -/
  | noByte
deriving DecidableEq, Repr

/-- What the decoder answers on a byte. -/
inductive Decoded where
  | instr (i : Instr)
  | rejected (why : Reject)
deriving DecidableEq, Repr

end Sys2Proof
end

