-- ==== Sys2Proof/WellFormed.lean ====
section
/-! DEFINITION. The checks the spec makes on a command's fields (R70, R73). A term of `Instr` carries
no operand, so nothing about it can be ill formed; what can is a `Command`. -/

namespace Sys2Proof

/-- The two length operations ignore the alphabet, so `URL` must be 0 for them (R70). -/
def Op.isLength : Op → Bool
  | .enc => false
  | .dec => false
  | .encLen => true
  | .decLen => true

/-- R70: `RSV` must be 0000. -/
def Command.rsvOk (c : Command) : Bool := c.rsv == 0

/-- R70: `URL` must be 0 for `ENCLEN` and `DECLEN`. -/
def Command.urlOk (c : Command) : Bool := !(c.url && c.op.isLength)

/-- A command that is one of the twelve operations (R73). -/
def Command.wf (c : Command) : Bool := c.rsvOk && c.urlOk

end Sys2Proof
end

