-- ==== Sys2Proof/Decode.lean ====
section
/-! DEFINITION. The decoder of a command byte, total on any byte and rejecting by name (R70 to R76),
and the encoder, written from the table of R72. -/

namespace Sys2Proof

/-- `CMD[1:0]` as an operation (R70). -/
def opOfBits (b : BitVec 2) : Op :=
  if b = 0b00 then .enc else if b = 0b01 then .dec else if b = 0b10 then .encLen else .decLen

/-- `OP` as bits (R70). -/
def bitsOfOp : Op → BitVec 2
  | .enc => 0b00
  | .dec => 0b01
  | .encLen => 0b10
  | .decLen => 0b11

/-- The fields of a command byte, `0000 p u oo` from the most significant bit (R70). -/
def splitCommand (b : Byte) : Command where
  rsv := b.extractLsb' 4 4
  pad := b.getLsbD 3
  url := b.getLsbD 2
  op := opOfBits (b.extractLsb' 0 2)

/-- The command byte with the given fields (R70). -/
def joinCommand (c : Command) : Byte :=
  c.rsv ++ BitVec.ofBool c.pad ++ BitVec.ofBool c.url ++ bitsOfOp c.op

/-- The operation that legal fields select, in the order of checks of R76. -/
def instrOf (c : Command) : Decoded :=
  if c.rsv ≠ 0 then .rejected .reservedBits
  else
    match c.op, c.url, c.pad with
    | .enc, false, false => .instr .encStdNopad
    | .enc, false, true => .instr .encStdPad
    | .enc, true, false => .instr .encUrlNopad
    | .enc, true, true => .instr .encUrlPad
    | .dec, false, false => .instr .decStdNopad
    | .dec, false, true => .instr .decStdPad
    | .dec, true, false => .instr .decUrlNopad
    | .dec, true, true => .instr .decUrlPad
    | .encLen, false, false => .instr .encLenNopad
    | .encLen, false, true => .instr .encLenPad
    | .encLen, true, _ => .rejected .urlOnLength
    | .decLen, false, false => .instr .decLenNopad
    | .decLen, false, true => .instr .decLenPad
    | .decLen, true, _ => .rejected .urlOnLength

/-- The decoder: R77, by the byte alone. -/
def decodeByte (b : Byte) : Decoded := instrOf (splitCommand b)

/-- The decoder over a sequence of bytes: every command is exactly one byte (R77). -/
def decodeBytes : List Byte → Decoded × List Byte
  | [] => (.rejected .noByte, [])
  | b :: rest => (decodeByte b, rest)

/-- The bytes of an instruction given as a number: a command is one byte, bits 7:0; the bits from
`nbits` on are 0. -/
def bytesOfTableWord (nbits w : Nat) : List Byte := [BitVec.ofNat 8 (w % 2 ^ nbits)]

/-- The instruction the decoder reads from a row's bits as the opcode table numbers them. -/
def decodeTableWord (nbits w : Nat) : Option Instr :=
  match (decodeBytes (bytesOfTableWord nbits w)).1 with
  | .instr i => some i
  | .rejected _ => none

/-- The fields of each operation, row by row from R72. -/
def commandOf : Instr → Command
  | .encStdNopad => { rsv := 0, pad := false, url := false, op := .enc }
  | .decStdNopad => { rsv := 0, pad := false, url := false, op := .dec }
  | .encLenNopad => { rsv := 0, pad := false, url := false, op := .encLen }
  | .decLenNopad => { rsv := 0, pad := false, url := false, op := .decLen }
  | .encUrlNopad => { rsv := 0, pad := false, url := true, op := .enc }
  | .decUrlNopad => { rsv := 0, pad := false, url := true, op := .dec }
  | .encStdPad => { rsv := 0, pad := true, url := false, op := .enc }
  | .decStdPad => { rsv := 0, pad := true, url := false, op := .dec }
  | .encLenPad => { rsv := 0, pad := true, url := false, op := .encLen }
  | .decLenPad => { rsv := 0, pad := true, url := false, op := .decLen }
  | .encUrlPad => { rsv := 0, pad := true, url := true, op := .enc }
  | .decUrlPad => { rsv := 0, pad := true, url := true, op := .dec }

/-- The command byte of an operation (R72). -/
def encodeByte (i : Instr) : Byte := joinCommand (commandOf i)

/-- The bytes of an operation (R77: one). -/
def encode (i : Instr) : List Byte := [encodeByte i]

end Sys2Proof
end

