-- ==== Sys2Proof/Config.lean ====
section
/-! DEFINITION. What one instance of the block fixes (the OPEN parameters of R6) and the free values
that the spec leaves unspecified. -/

namespace Sys2Proof

/-- The two OPEN parameters of R6: the numbers of entries of `IBUF` and `OBUF`, each in 1..4096. A
value outside the range is refused (93_implementation_defined.md V10): it cannot be written down. -/
structure Config where
  inCap : Nat
  outCap : Nat
  inCap_pos : 1 ≤ inCap := by decide
  inCap_max : inCap ≤ 4096 := by decide
  outCap_pos : 1 ≤ outCap := by decide
  outCap_max : outCap ≤ 4096 := by decide
deriving DecidableEq, Repr

/-- The reference values of R6. -/
def Config.reference : Config := { inCap := 4096, outCap := 4096 }

/-- FREE VALUE (assumption 3, DESIGN CHOICE as to form): the unspecified 8-bit value that a host read
of an undefined buffer entry, or of `OBUF` while busy, returns (R30, R37). `State.draws` counts the
draws, so two reads may differ. Nothing evaluates it. -/
opaque Config.freeByte : Nat → Byte

end Sys2Proof
end

