-- ==== Sys2Proof/Machine/State.lean ====
section
/-! DEFINITION. The state of the block: the four registers and two buffers of R20, the instance's
parameters (R6), and what the model itself holds to say which of the two agents moves next (R20, R43).
`INVENTORY.md` lists every field with its rule and reset value. -/

namespace Sys2Proof.Machine

/-- A buffer's defined entries as (index, byte), in rising order of index. An entry that is not listed
holds no value (R30; assumption 19, DEDUCED). -/
abbrev Memory := List Host.Cell

/-- The error kinds a failed operation reports (R170). `ERR = 0` (`NONE`) is `Option.none` of this
type; the codes 6 and 7 are never produced (R26) and have no constructor. -/
inductive FailKind where
  | malformedInput
  | invalidSymbol
  | misplacedPadding
  | illegalCmd
  | range
deriving DecidableEq, Repr

/-- The fields of `STATUS` (R26, R34): the host reads the word they make and never writes it (assumption 10,
DEDUCED). -/
structure Status where
  busy : Bool
  done : Bool
  ok : Bool
  err : Option FailKind
deriving DecidableEq, Repr

/-- One transition of the block (R21): what the host port carries, whether the engine completes, or
reset. `idle` is a cycle in which none of these happens. -/
inductive PortEvent where
  /-- a clock cycle with no host access and no completion -/
  | idle
  /-- `h_sel = 1`, `h_we = 0`: `HostRead(a)` (R37) -/
  | read (a : Addr)
  /-- `h_sel = 1`, `h_we = 1`: `HostWrite(a, v)` (R36) -/
  | write (a : Addr) (v : Data)
  /-- the engine step (R41), enabled only while busy (R20) -/
  | engine
  /-- `rst = 1` at the edge (R39) -/
  | reset
deriving DecidableEq, Repr

/-- The state of one instance of the block. -/
structure State where
  /-- this instance's capacities (R6); no transition changes them -/
  cfg : Config
  /-- `CMD`, index 0x0000 (R23) -/
  cmd : Byte
  /-- `IN_LEN`, index 0x0001 (R24) -/
  inLen : Data
  /-- `OUT_LEN`, index 0x0002 (R25) -/
  outLen : Data
  /-- `STATUS`, index 0x0003 (R26) -/
  status : Status
  /-- `IBUF` (R28) -/
  ibuf : Memory
  /-- `OBUF` (R29) -/
  obuf : Memory
  /-- the pin `h_rdata` in the last cycle (R21): the value of a read, 0 in every other cycle
  (assumption 2, DESIGN CHOICE) -/
  hRdata : Data
  /-- the model's own: what happens in the coming cycles, first event next (R43; assumption 1,
  DESIGN CHOICE) -/
  schedule : List PortEvent
  /-- the model's own: how many unspecified bytes have been drawn (assumption 3, DESIGN CHOICE) -/
  draws : Nat
deriving DecidableEq, Repr

/-- Why the machine stops. -/
inductive Fault where
  /-- Raised by an encode or a decode whose input covers an `IBUF` entry that holds no value (R30 asks for
  a fault here and not for a value), and so by the `CMD` write that would start it
  (93_implementation_defined.md V2; assumption 5, DEDUCED). Safe: nothing is proved past it. -/
  | undefinedInput
deriving DecidableEq, Repr

/-- Why the model gives an instruction no meaning. -/
inductive Refusal where
  /-- Raised by `exec` alone, for an operation not modelled yet; no arm raises it now. Safe. -/
  | notModelled (mnemonic : String)
deriving DecidableEq, Repr

/-- The state right after reset of an instance with the given capacities (R39, R200): registers 0,
buffers without a value. The model's own fields: nothing scheduled, nothing drawn. -/
def State.resetOf (cfg : Config) : State where
  cfg := cfg
  cmd := 0x00
  inLen := 0
  outLen := 0
  status := { busy := false, done := false, ok := false, err := none }
  ibuf := []
  obuf := []
  hRdata := 0
  schedule := []
  draws := 0

/-- The state right after reset, at the reference capacities of R6 (assumption 6, DESIGN CHOICE). -/
def State.reset : State := State.resetOf Config.reference

end Sys2Proof.Machine
end

