-- ==== Sys2Proof/Machine/Flags.lean ====
section
/-! DEFINITION. The only flags of the block (R34): the fields of `STATUS`, their codes, the values the
start and the completion of an operation give them, and the two level outputs. -/

namespace Sys2Proof.Machine

/-- The code `STATUS.ERR` takes for a kind (R170). -/
def FailKind.code : FailKind → BitVec 3
  | .malformedInput => 1
  | .invalidSymbol => 2
  | .misplacedPadding => 3
  | .illegalCmd => 4
  | .range => 5

/-- `STATUS.ERR`, 0 for `NONE` (R26, R170). -/
def Status.errCode (t : Status) : BitVec 3 :=
  match t.err with
  | none => 0
  | some k => k.code

/-- The word a host reads at index 0x0003: `{25'b0, ERR, 1'b0, OK, DONE, BUSY}` (R37). -/
def Status.word (t : Status) : Data :=
  0#25 ++ t.errCode ++ 0#1 ++ BitVec.ofBool t.ok ++ BitVec.ofBool t.done ++ BitVec.ofBool t.busy

/-- `STATUS` after reset (R39). -/
def Status.idle : Status := { busy := false, done := false, ok := false, err := none }

/-- `STATUS` from the start of an operation to its completion (R40). -/
def Status.running : Status := { busy := true, done := false, ok := false, err := none }

/-- `STATUS` after a successful completion (R41). -/
def Status.succeeded : Status := { busy := false, done := true, ok := true, err := none }

/-- `STATUS` after a completion that failed with kind `k` (R41, R176). -/
def Status.failed (k : FailKind) : Status :=
  { busy := false, done := true, ok := false, err := some k }

/-- The pin `busy` (R21, R181). -/
def State.busyPin (s : State) : Bool := s.status.busy

/-- The pin `done` (R21, R181). -/
def State.donePin (s : State) : Bool := s.status.done

end Sys2Proof.Machine
end

