-- ==== Sys2Proof/Machine/Ops.lean ====
section
/-! DEFINITION. The named operations over buffers and registers: reading and writing buffer entries, the
start of an operation (R40), its completion (R41, with failure R176 as the block's one "trap entry"),
and reset (R39). -/

namespace Sys2Proof.Machine

/-! ### Buffers -/

/-- The canonical form: indices strictly rising. (An unlisted entry has no value, so no listed byte can
equal what an unlisted entry reads as.) -/
def Memory.wf : Memory → Bool
  | [] => true
  | [_] => true
  | c :: d :: rest => decide (c.1 < d.1) && Memory.wf (d :: rest)

/-- Every listed entry exists in a buffer of `cap` entries (R28, R29). -/
def Memory.within (m : Memory) (cap : Nat) : Bool := m.all fun c => decide (c.1 < cap)

/-- The byte entry `i` holds; `none` if it is undefined (R30). -/
def Memory.readByte : Memory → Nat → Option Byte
  | [], _ => none
  | c :: rest, i => if c.1 = i then some c.2 else Memory.readByte rest i

/-- Entry `i` becomes `b`, the canonical form kept. -/
def Memory.writeByte : Memory → Nat → Byte → Memory
  | [], i, b => [(i, b)]
  | c :: rest, i, b =>
    if i < c.1 then (i, b) :: c :: rest
    else if i = c.1 then (i, b) :: rest
    else c :: Memory.writeByte rest i b

/-- Entries `i`, `i + 1`, … become the bytes given, in order. (The entries are distinct, so the order of
the writes is of no account, R58.) -/
def Memory.writeRun (m : Memory) (i : Nat) : List Byte → Memory
  | [] => m
  | b :: bs => (Memory.writeRun m (i + 1) bs).writeByte i b

/-- Entries below `n` lose their value (R30, R177). -/
def Memory.undefineBelow (m : Memory) (n : Nat) : Memory := m.filter fun c => decide (n ≤ c.1)

/-- The bytes of entries `i .. i + n - 1`; `none` if one of them is undefined (R30). -/
def Memory.readRun (m : Memory) (i : Nat) : Nat → Option (List Byte)
  | 0 => some []
  | n + 1 =>
    match m.readByte i, Memory.readRun m (i + 1) n with
    | some b, some bs => some (b :: bs)
    | _, _ => none

/-! ### Start, completion, reset -/

/-- The start of an operation with command byte `c`, one atomic transition (R40). -/
def State.start (s : State) (c : Byte) : State :=
  { s with cmd := c, outLen := 0, status := Status.running }

/-- How an operation ends (R41): `ok len out` with the bytes written to `OBUF` from index 0, or
`fail kind spoiled`, where `OBUF[0 .. spoiled-1]` become undefined (R177; assumption 7, DEDUCED). -/
inductive OpResult where
  | ok (len : Nat) (out : List Byte)
  | fail (kind : FailKind) (spoiled : Nat)
deriving DecidableEq, Repr

/-- Completion, one atomic transition (R41). The `fail` case is the failed completion of R176, the only
way an error kind is recorded. -/
def State.complete (s : State) : OpResult → State
  | .ok len out =>
    { s with
      obuf := s.obuf.writeRun 0 out
      outLen := BitVec.ofNat 32 len
      status := Status.succeeded }
  | .fail kind spoiled =>
    { s with
      obuf := s.obuf.undefineBelow spoiled
      outLen := 0
      status := Status.failed kind }

/-- Completion of a reserved command byte: `ILLEGAL_CMD`, no buffer touched (R75, R174). -/
def State.completeIllegal (s : State) : State := s.complete (.fail .illegalCmd 0)

/-- Reset at a clock edge, whatever the state (R39, R201): registers 0, every buffer entry undefined. The
capacities stay, and so do the model's own fields: the events still to come and the count of draws
(assumption 13, DEDUCED). -/
def State.resetNow (s : State) : State :=
  { State.resetOf s.cfg with schedule := s.schedule, draws := s.draws }

end Sys2Proof.Machine
end

