-- ==== Sys2Proof/Machine/Tables.lean ====
section
/-! DEFINITION. The two alphabets, their encode tables and the decode tables built from them (40_tables.md).
They are constants of the model, not state (R31; assumption 15, DEDUCED). The symbol codes are those of
R91, which the spec takes from general knowledge (assumption 8, PRESUMED). -/

namespace Sys2Proof.Machine

/-- The code of the padding symbol `=` (R6, R91). -/
def padSym : Byte := 0x3D

/-- The sentinel PAD, -2 (R6, R97). -/
def entryPad : Entry := 0xFE

/-- The sentinel INVALID, -1 (R6, R97). -/
def entryInvalid : Entry := 0xFF

/-- Positions 0 to 25 of both alphabets: `A` to `Z` (R90, R92). -/
def upperCodes : List Byte :=
  [0x41, 0x42, 0x43, 0x44, 0x45, 0x46, 0x47, 0x48, 0x49, 0x4A, 0x4B, 0x4C, 0x4D] ++
  [0x4E, 0x4F, 0x50, 0x51, 0x52, 0x53, 0x54, 0x55, 0x56, 0x57, 0x58, 0x59, 0x5A]

/-- Positions 26 to 51 of both alphabets: `a` to `z` (R90, R92). -/
def lowerCodes : List Byte :=
  [0x61, 0x62, 0x63, 0x64, 0x65, 0x66, 0x67, 0x68, 0x69, 0x6A, 0x6B, 0x6C, 0x6D] ++
  [0x6E, 0x6F, 0x70, 0x71, 0x72, 0x73, 0x74, 0x75, 0x76, 0x77, 0x78, 0x79, 0x7A]

/-- Positions 52 to 61 of both alphabets: `0` to `9` (R90, R92). -/
def digitCodes : List Byte :=
  [0x30, 0x31, 0x32, 0x33, 0x34, 0x35, 0x36, 0x37, 0x38, 0x39]

/-- `ENC_STD`: `+` and `/` at positions 62 and 63 (R92). -/
def encStd : List Byte := upperCodes ++ lowerCodes ++ digitCodes ++ [0x2B, 0x2F]

/-- `ENC_URL`: `-` and `_` at positions 62 and 63 (R93). -/
def encUrl : List Byte := upperCodes ++ lowerCodes ++ digitCodes ++ [0x2D, 0x5F]

/-- The encode table of an alphabet. -/
def encTable : Alphabet → List Byte
  | .standard => encStd
  | .urlSafe => encUrl

/-- Each table has exactly 64 entries (R31), so an encode-table read by a 6-bit value is never out of
range (R122). -/
theorem encTable_length (a : Alphabet) : (encTable a).length = 64 := by cases a <;> rfl

/-- `ENC[k]` (R9). -/
def encSymbol (a : Alphabet) (k : Sextet) : Byte :=
  (encTable a)[k.toNat]'(by rw [encTable_length]; exact k.isLt)

/-- The position of a code in a table, counted from `k`. -/
def positionFrom (k : Nat) (c : Byte) : List Byte → Option Nat
  | [] => none
  | d :: rest => if d = c then some k else positionFrom (k + 1) c rest

/-- One entry of `buildDecodeTable` (R94): the position of the symbol, else PAD for `=`, else INVALID. -/
def decodeTableEntry (enc : List Byte) (c : Byte) : Entry :=
  match positionFrom 0 c enc with
  | some k => BitVec.ofNat 8 k
  | none => if c = padSym then entryPad else entryInvalid

/-- `buildDecodeTable(ENC)` (R94): entry `c` for every code `c` in 0 .. 255. -/
def buildDecodeTable (enc : List Byte) : List Entry :=
  (List.range 256).map fun c => decodeTableEntry enc (BitVec.ofNat 8 c)

/-- `DEC_STD[c]` or `DEC_URL[c]` (R9, R94). -/
def decEntry (a : Alphabet) (c : Byte) : Entry := decodeTableEntry (encTable a) c

end Sys2Proof.Machine
end

