-- ==== Sys2Proof/Machine/Operands.lean ====
section
/-! DEFINITION. The operands of the operations (R32, R71): the length `IN_LEN`, the input sequence
`IBUF[0 .. IN_LEN-1]`, and the bit fields an encode or a decode takes from a group of it (R52, R53,
R122, R124, R145 to R147). -/

namespace Sys2Proof.Machine

/-- The length operand: `IN_LEN` as a natural number, no wrap-around (R8, R71). -/
def State.inCount (s : State) : Nat := s.inLen.toNat

/-- The data operand `IBUF[0 .. n-1]`; `none` if an entry of it is undefined (R28, R30). -/
def State.readInput (s : State) (n : Nat) : Option (List Byte) := s.ibuf.readRun 0 n

/-! ### Packing: bytes to 6-bit values -/

/-- A full group: `w = {b0, b1, b2}`, fields 23:18, 17:12, 11:6, 5:0 (R52, R122). -/
def packThree (b0 b1 b2 : Byte) : List Sextet :=
  let w := b0 ++ b1 ++ b2
  [w.extractLsb' 18 6, w.extractLsb' 12 6, w.extractLsb' 6 6, w.extractLsb' 0 6]

/-- A 2-byte remainder: `w = {b0, b1}`, fields 15:10, 9:4 and `{3:0, 00}` (R121, R124). -/
def packTwo (b0 b1 : Byte) : List Sextet :=
  let w := b0 ++ b1
  [w.extractLsb' 10 6, w.extractLsb' 4 6, w.extractLsb' 0 4 ++ 0#2]

/-- A 1-byte remainder: fields 7:2 and `{1:0, 0000}` (R121, R124). -/
def packOne (b : Byte) : List Sextet := [b.extractLsb' 2 6, b.extractLsb' 0 2 ++ 0#4]

/-! ### Unpacking: table entries to bytes -/

/-- `v[5:0]` of a table entry (R144). -/
def entryValue (v : Entry) : Sextet := v.extractLsb' 0 6

/-- The sentinel test: bit 7 (R97). -/
def isSentinel (v : Entry) : Bool := v.getLsbD 7

/-- Four values: `w` has 24 bits, bytes 23:16, 15:8, 7:0 (R145). -/
def unpackFour (v0 v1 v2 v3 : Entry) : List Byte :=
  let w := entryValue v0 ++ entryValue v1 ++ entryValue v2 ++ entryValue v3
  [w.extractLsb' 16 8, w.extractLsb' 8 8, w.extractLsb' 0 8]

/-- Three values: `w` has 18 bits, bytes 17:10, 9:2; the trailing bits 1:0 are dropped (R141, R146). -/
def unpackThree (v0 v1 v2 : Entry) : List Byte :=
  let w := entryValue v0 ++ entryValue v1 ++ entryValue v2
  [w.extractLsb' 10 8, w.extractLsb' 2 8]

/-- Two values: `w` has 12 bits, byte 11:4; the trailing bits 3:0 are dropped (R141, R146). -/
def unpackTwo (v0 v1 : Entry) : List Byte :=
  let w := entryValue v0 ++ entryValue v1
  [w.extractLsb' 4 8]

end Sys2Proof.Machine
end

