-- ==== Sys2Proof/Machine/Length.lean ====
section
/-! DEFINITION. The length calculations (41_length.md): the two functions and the four operations
`ENCLEN.NOPAD`, `ENCLEN.PAD`, `DECLEN.NOPAD`, `DECLEN.PAD`. -/

namespace Sys2Proof.Machine

/-- `encodedLength(n, padded)`, in the natural numbers (R110). -/
def encodedLength (n : Nat) (padded : Bool) : Nat :=
  if padded then (n + 2) / 3 * 4
  else n / 3 * 4 + (if n % 3 = 0 then 0 else n % 3 + 1)

/-- `decodedLength(m, padded)`, an upper bound of the decoded count (R111). -/
def decodedLength (m : Nat) (padded : Bool) : Nat :=
  if padded then m / 4 * 3 else m / 4 * 3 + m % 4

/-- `EncLenOp(padded, IN_LEN)` (R112): a result of 2^32 or more is `RANGE`, never truncated. -/
def encLenOp (padded : Bool) (s : State) : Host.Outcome State Fault Refusal :=
  let len := encodedLength s.inCount padded
  if 2 ^ 32 ≤ len then .next (s.complete (.fail .range 0)) else .next (s.complete (.ok len []))

/-- `DecLenOp(padded, IN_LEN)` (R112): the result always fits. -/
def decLenOp (padded : Bool) (s : State) : Host.Outcome State Fault Refusal :=
  .next (s.complete (.ok (decodedLength s.inCount padded) []))

/-- `ENCLEN.NOPAD` (R113). -/
def execEncLenNopad (s : State) : Host.Outcome State Fault Refusal := encLenOp false s

/-- `ENCLEN.PAD` (R114). -/
def execEncLenPad (s : State) : Host.Outcome State Fault Refusal := encLenOp true s

/-- `DECLEN.NOPAD` (R115). -/
def execDecLenNopad (s : State) : Host.Outcome State Fault Refusal := decLenOp false s

/-- `DECLEN.PAD` (R116). -/
def execDecLenPad (s : State) : Host.Outcome State Fault Refusal := decLenOp true s

end Sys2Proof.Machine
end

