-- ==== Sys2Proof/Machine/Decoding.lean ====
section
/-! DEFINITION. The decode operations (43_decode.md): the pure function `Decode` and the four operations
`DEC.STD.NOPAD`, `DEC.URL.NOPAD`, `DEC.STD.PAD`, `DEC.URL.PAD`. -/

namespace Sys2Proof.Machine

/-- What `Decode` answers: `Bytes(B)` or `Err(kind)` (R141). -/
inductive DecodeResult where
  | bytes (out : List Byte)
  | err (kind : FailKind)
deriving DecidableEq, Repr

/-- The length check of R142: padded mode needs a multiple of 4, unpadded mode excludes remainder 1. -/
def badLength (padded : Bool) (m : Nat) : Bool :=
  if padded then m % 4 != 0 else m % 4 == 1

/-- `Check(v)` (R141, R144): the kind with which an entry fails where a value is required. -/
def checkEntry (v : Entry) : Option FailKind :=
  if v = entryInvalid then some .invalidSymbol
  else if v = entryPad then some .misplacedPadding
  else none

/-- `Check` over entries in index order: the first that fails decides (R144, R172). -/
def checkAll : List Entry → Option FailKind
  | [] => none
  | v :: rest =>
    match checkEntry v with
    | some k => some k
    | none => checkAll rest

/-- The bytes of the entries that carry data: 4, 3 or 2 of them (R141). -/
def unpackGroup : List Entry → List Byte
  | [v0, v1, v2, v3] => unpackFour v0 v1 v2 v3
  | [v0, v1, v2] => unpackThree v0 v1 v2
  | [v0, v1] => unpackTwo v0 v1
  | _ => []

/-- `need` (R141): how many entries of the final group must be values. In padded mode one or two PAD
entries at its end carry none. -/
def needed (padded : Bool) : List Entry → Nat
  | [_, _, v2, v3] =>
    if padded then
      if v3 = entryPad then (if v2 = entryPad then 2 else 3) else 4
    else 4
  | vs => vs.length

/-- The final group (R146, R147), given its entries. -/
def finalGroup (padded : Bool) (vs : List Entry) : DecodeResult :=
  let required := vs.take (needed padded vs)
  match checkAll required with
  | some k => .err k
  | none => .bytes (unpackGroup required)

/-- A non-terminal group's bytes before those of the groups after it (R145). -/
def DecodeResult.prepend (out : List Byte) : DecodeResult → DecodeResult
  | .bytes more => .bytes (out ++ more)
  | .err k => .err k

/-- The groups of a sequence in order (R143): four symbols with more after them are a non-terminal
group, which must be four values (R144, R145); what is left is the final group
(never of one symbol after the length check; assumption 18, DEDUCED). -/
def decodeGroups (a : Alphabet) (padded : Bool) : List Byte → DecodeResult
  | [] => .bytes []
  | s0 :: s1 :: s2 :: s3 :: s4 :: rest =>
    let group := [s0, s1, s2, s3].map (decEntry a)
    match checkAll group with
    | some k => .err k
    | none => (decodeGroups a padded (s4 :: rest)).prepend (unpackGroup group)
  | final => finalGroup padded (final.map (decEntry a))

/-- `Decode(S, url, padded)` (R141): the length check, then the groups. -/
def decodeSeq (a : Alphabet) (padded : Bool) (symbols : List Byte) : DecodeResult :=
  if badLength padded symbols.length then .err .malformedInput else decodeGroups a padded symbols

/-- How many entries of `OBUF` a failed decode of `m` symbols leaves undefined: none when the failure
is decided before any buffer access, else those below the bound (R177). -/
def spoiledBy (kind : FailKind) (m : Nat) (padded : Bool) : Nat :=
  match kind with
  | .invalidSymbol => decodedLength m padded
  | .misplacedPadding => decodedLength m padded
  | .malformedInput => 0
  | .illegalCmd => 0
  | .range => 0

/-- The completion that a decode of `m` symbols leads to (R149, R176, R177). -/
def decodeOutcome (m : Nat) (padded : Bool) : DecodeResult → OpResult
  | .bytes out => .ok out.length out
  | .err k => .fail k (spoiledBy k m padded)

/-- `DecOp(url, padded, IN_LEN)` (R149): the `RANGE` tests, then the length check, come before any
buffer access (R172, R177 (a); assumption 4, DEDUCED). -/
def decOp (a : Alphabet) (padded : Bool) (s : State) : Host.Outcome State Fault Refusal :=
  if s.cfg.inCap < s.inCount then .next (s.complete (.fail .range 0))
  else if s.cfg.outCap < decodedLength s.inCount padded then .next (s.complete (.fail .range 0))
  else if badLength padded s.inCount then .next (s.complete (.fail .malformedInput 0))
  else
    match s.readInput s.inCount with
    | none => .fault .undefinedInput
    | some symbols =>
      .next (s.complete (decodeOutcome s.inCount padded (decodeSeq a padded symbols)))

/-- `DEC.STD.NOPAD` (R150). -/
def execDecStdNopad (s : State) : Host.Outcome State Fault Refusal := decOp .standard false s

/-- `DEC.URL.NOPAD` (R151). -/
def execDecUrlNopad (s : State) : Host.Outcome State Fault Refusal := decOp .urlSafe false s

/-- `DEC.STD.PAD` (R152). -/
def execDecStdPad (s : State) : Host.Outcome State Fault Refusal := decOp .standard true s

/-- `DEC.URL.PAD` (R153). -/
def execDecUrlPad (s : State) : Host.Outcome State Fault Refusal := decOp .urlSafe true s

end Sys2Proof.Machine
end

