-- ==== Sys2Proof/Machine/Encoding.lean ====
section
/-! DEFINITION. The encode operations (42_encode.md): the pure function `Encode` and the four operations
`ENC.STD.NOPAD`, `ENC.URL.NOPAD`, `ENC.STD.PAD`, `ENC.URL.PAD`. -/

namespace Sys2Proof.Machine

/-- The padding symbols after a remainder, written only in padded mode (R124). -/
def padding (padded : Bool) (count : Nat) : List Byte :=
  if padded then List.replicate count padSym else []

/-- `Encode(B, url, padded)` (R121): full groups of 3 bytes, then the remainder of 1 or 2. -/
def encodeSeq (a : Alphabet) (padded : Bool) : List Byte → List Byte
  | [] => []
  | [b] => (packOne b).map (encSymbol a) ++ padding padded 2
  | [b0, b1] => (packTwo b0 b1).map (encSymbol a) ++ padding padded 1
  | b0 :: b1 :: b2 :: rest => (packThree b0 b1 b2).map (encSymbol a) ++ encodeSeq a padded rest

/-- `EncOp(url, padded, IN_LEN)` (R123): both `RANGE` tests come before any buffer access (assumption 4,
DEDUCED: and so before an undefined entry is looked at). -/
def encOp (a : Alphabet) (padded : Bool) (s : State) : Host.Outcome State Fault Refusal :=
  if s.cfg.inCap < s.inCount then .next (s.complete (.fail .range 0))
  else if s.cfg.outCap < encodedLength s.inCount padded then .next (s.complete (.fail .range 0))
  else
    match s.readInput s.inCount with
    | none => .fault .undefinedInput
    | some bytes =>
      .next (s.complete (.ok (encodedLength s.inCount padded) (encodeSeq a padded bytes)))

/-- `ENC.STD.NOPAD` (R125). -/
def execEncStdNopad (s : State) : Host.Outcome State Fault Refusal := encOp .standard false s

/-- `ENC.URL.NOPAD` (R126). -/
def execEncUrlNopad (s : State) : Host.Outcome State Fault Refusal := encOp .urlSafe false s

/-- `ENC.STD.PAD` (R127). -/
def execEncStdPad (s : State) : Host.Outcome State Fault Refusal := encOp .standard true s

/-- `ENC.URL.PAD` (R128). -/
def execEncUrlPad (s : State) : Host.Outcome State Fault Refusal := encOp .urlSafe true s

end Sys2Proof.Machine
end

