-- ==== Sys2Proof/Machine/Dispatch.lean ====
section
/-! DEFINITION. The dispatch of an operation to its meaning, one arm per constructor (R72, R76). -/

namespace Sys2Proof.Machine

def exec (i : Instr) (s : State) : Host.Outcome State Fault Refusal :=
  match i with
  | .encStdNopad => Sys2Proof.Machine.execEncStdNopad s
  | .decStdNopad => Sys2Proof.Machine.execDecStdNopad s
  | .encLenNopad => Sys2Proof.Machine.execEncLenNopad s
  | .decLenNopad => Sys2Proof.Machine.execDecLenNopad s
  | .encUrlNopad => Sys2Proof.Machine.execEncUrlNopad s
  | .decUrlNopad => Sys2Proof.Machine.execDecUrlNopad s
  | .encStdPad => Sys2Proof.Machine.execEncStdPad s
  | .decStdPad => Sys2Proof.Machine.execDecStdPad s
  | .encLenPad => Sys2Proof.Machine.execEncLenPad s
  | .decLenPad => Sys2Proof.Machine.execDecLenPad s
  | .encUrlPad => Sys2Proof.Machine.execEncUrlPad s
  | .decUrlPad => Sys2Proof.Machine.execDecUrlPad s

end Sys2Proof.Machine
end

