-- ==== Sys2Proof/Machine/Engine.lean ====
section
/-! DEFINITION. The engine: its step (R41), which decodes `CMD` and performs the operation or, on a reserved
byte, completes with `ILLEGAL_CMD` (R75, R76), and the start that puts an operation before it (R40). -/

namespace Sys2Proof.Machine

/-- The engine step of a busy block: `Execute(CMD, IN_LEN, IBUF)` and completion, one transition (R41,
R76; assumption 9, DEDUCED). -/
def engineStep (s : State) : Host.Outcome State Fault Refusal :=
  match decodeByte s.cmd with
  | .instr i => exec i s
  | .rejected _ => .next s.completeIllegal

/-- The engine is enabled exactly while `BUSY = 1` (R20, R41); otherwise nothing happens. -/
def engineTurn (s : State) : Host.Outcome State Fault Refusal :=
  if s.status.busy then engineStep s else .next s

/-- The start of an operation by a `CMD` write (R40). Where the operation would read an entry that holds no
value, the host program is wrong and the model stops here, at the write (R30, R208;
93_implementation_defined.md V2): nothing the engine reads can change while it is busy, so the write
knows what its step will answer. -/
def startOperation (c : Byte) (s : State) : Host.Outcome State Fault Refusal :=
  match engineStep (s.start c) with
  | .next _ => .next (s.start c)
  | .fault why => .fault why
  | .refused why => .refused why

end Sys2Proof.Machine
end

