-- ==== Sys2Proof/Machine/Port.lean ====
section
/-! DEFINITION. The host register port (10_state.md, sections 3 and 8): the register map of R22, `HostWrite`
(R36) and `HostRead` (R37). No access is answered with an error and no read changes the block (R58, R180);
what can stop the model is a `CMD` write that starts an operation on undefined input (R30). -/

namespace Sys2Proof.Machine

/-- What a register index selects (R22, R38). -/
inductive Location where
  | cmd
  | inLen
  | outLen
  | status
  | ibuf (i : Nat)
  | obuf (i : Nat)
  | unmapped
deriving DecidableEq, Repr

/-- The register map (R22): the registers at 0 to 3, `IBUF` from 0x1000, `OBUF` from 0x2000. -/
def locationOf (cfg : Config) (a : Addr) : Location :=
  let n := a.toNat
  if n = 0x0000 then .cmd
  else if n = 0x0001 then .inLen
  else if n = 0x0002 then .outLen
  else if n = 0x0003 then .status
  else if 0x1000 ≤ n ∧ n < 0x1000 + cfg.inCap then .ibuf (n - 0x1000)
  else if 0x2000 ≤ n ∧ n < 0x2000 + cfg.outCap then .obuf (n - 0x2000)
  else .unmapped

/-- `HostWrite(a, v)` (R36): `CMD`, `IN_LEN` and `IBUF` while not busy, nothing otherwise. -/
def hostWrite (a : Addr) (v : Data) (s : State) : Host.Outcome State Fault Refusal :=
  if s.status.busy then .next s
  else
    match locationOf s.cfg a with
    | .cmd => startOperation (v.extractLsb' 0 8) s
    | .inLen => .next { s with inLen := v }
    | .ibuf i => .next { s with ibuf := s.ibuf.writeByte i (v.extractLsb' 0 8) }
    | .outLen => .next s
    | .status => .next s
    | .obuf _ => .next s
    | .unmapped => .next s

/-- What a host read finds at a location: a value, or `none` where the spec gives an unspecified 8-bit
one (an undefined entry, R30; `OBUF` while busy, R37). -/
def readLocation (s : State) : Location → Option Data
  | .cmd => some (s.cmd.setWidth 32)
  | .inLen => some s.inLen
  | .outLen => some s.outLen
  | .status => some s.status.word
  | .ibuf i => (s.ibuf.readByte i).map fun b => b.setWidth 32
  | .obuf i => if s.status.busy then none else (s.obuf.readByte i).map fun b => b.setWidth 32
  | .unmapped => some 0

/-- `HostRead(a)` (R37): the value goes to the pin `h_rdata`. An unspecified value is a free byte,
zero-extended, and counts as drawn (assumption 3). -/
def hostRead (a : Addr) (s : State) : State :=
  match readLocation s (locationOf s.cfg a) with
  | some v => { s with hRdata := v }
  | none => { s with hRdata := (Config.freeByte s.draws).setWidth 32, draws := s.draws + 1 }

end Sys2Proof.Machine
end

