-- ==== Sys2Proof/Machine/Transition.lean ====
section
/-! DEFINITION. The one transition that each event of the port stands for (R20, R21). -/

namespace Sys2Proof.Machine

/-- The transition of one event (R20, R21). -/
def transition (e : PortEvent) (s : State) : Host.Outcome State Fault Refusal :=
  match e with
  | .idle => .next s
  | .read a => .next (hostRead a s)
  | .write a v => hostWrite a v s
  | .engine => engineTurn s
  | .reset => .next s.resetNow

/-- The state as a cycle begins: its event taken from the schedule, `h_rdata` at the 0 it carries in a
cycle that reads nothing (R21). -/
def beginCycle (s : State) (rest : List PortEvent) : State :=
  { s with schedule := rest, hRdata := 0 }

end Sys2Proof.Machine
end

