-- ==== Sys2Proof/Machine/Step.lean ====
section
/-! DEFINITION. One step of the block, and the state in which a given command runs next. -/

namespace Sys2Proof.Machine

/-- One transition: the next scheduled event, or, when the host makes no further access, the pending
operation's completion (R210: every started operation completes); with nothing pending, an idle cycle. -/
def step (s : State) : Host.Outcome State Fault Refusal :=
  match s.schedule with
  | [] => transition .engine (beginCycle s [])
  | e :: rest => transition e (beginCycle s rest)

/-- `s` just after the host's write of the command `w` (R40), with the engine's step the very next one: an
empty schedule lets the engine move by itself, any other is put behind it. This is the start alone; the
stop on undefined input that the write would answer is left to the engine's step (assumption 11, DESIGN
CHOICE). -/
def State.withFetchWord (s : State) (nbits w : Nat) : State :=
  let started := s.start (BitVec.ofNat 8 (w % 2 ^ nbits))
  match s.schedule with
  | [] => started
  | later => { started with schedule := .engine :: later }

end Sys2Proof.Machine
end

