-- ==== Sys2Proof/Machine/Script.lean ====
section
/-! DEFINITION. Host scripts (R81): what each statement stands for as events of the port. -/

namespace Sys2Proof.Machine

/-- The statements of R81. `expect` asserts what the last read returned and is no access; `load` is the
spec's `in`; `run` takes the operation that a mnemonic or an alias of R80 names; `wait` polls `STATUS`
a number of times while the operation runs and once after it completes; `mov` takes the entries it
copies (assumption 12, DESIGN CHOICE). -/
inductive Stmt where
  | wr (a : Addr) (v : Data)
  | rd (a : Addr)
  | expect (v : Data)
  | load (input : List Byte)
  | run (i : Instr)
  | wait (polls : Nat)
  | out (n : Nat)
  | mov (entries : List Byte)
deriving DecidableEq, Repr

/-- Index of `IBUF[i]` (R22). -/
def ibufIndex (i : Nat) : Addr := BitVec.ofNat 14 (0x1000 + i)

/-- Index of `OBUF[i]` (R22). -/
def obufIndex (i : Nat) : Addr := BitVec.ofNat 14 (0x2000 + i)

/-- Writes of consecutive `IBUF` entries, in ascending order (R81). -/
def loadFrom (i : Nat) : List Byte → List PortEvent
  | [] => []
  | b :: bs => .write (ibufIndex i) (b.setWidth 32) :: loadFrom (i + 1) bs

/-- Copies of consecutive `OBUF` entries to `IBUF`: a read, then the write of the value read (R81). -/
def copyFrom (i : Nat) : List Byte → List PortEvent
  | [] => []
  | b :: bs => .read (obufIndex i) :: .write (ibufIndex i) (b.setWidth 32) :: copyFrom (i + 1) bs

/-- The events of a statement (R81). -/
def Stmt.events : Stmt → List PortEvent
  | .wr a v => [.write a v]
  | .rd a => [.read a]
  | .expect _ => []
  | .load input => loadFrom 0 input ++ [.write 0x0001 (BitVec.ofNat 32 input.length)]
  | .run i => [.write 0x0000 ((encodeByte i).setWidth 32)]
  | .wait polls => List.replicate polls (.read 0x0003) ++ [.engine, .read 0x0003]
  | .out n => (List.range n).map fun i => .read (obufIndex i)
  | .mov entries => copyFrom 0 entries ++ [.write 0x0001 (BitVec.ofNat 32 entries.length)]

/-- The events of a script, statement after statement. -/
def scriptEvents (script : List Stmt) : List PortEvent := script.flatMap Stmt.events

end Sys2Proof.Machine
end

