-- ==== Sys2Proof/Safety.lean ====
section
/-! DEFINITION. The terms in which claims speak of the block: the operations by family, what it is for an
operation to go wrong (R190), and the invariants of a run (R27, R171). -/

namespace Sys2Proof.Machine

/-- The next state, where there is one. -/
def nextOf : Host.Outcome State Fault Refusal → Option State
  | .next t => some t
  | .fault _ => none
  | .refused _ => none

/-- `n` steps, one after the other, ending early where a step stops. -/
def runSteps : Nat → State → Host.Outcome State Fault Refusal
  | 0, s => .next s
  | n + 1, s =>
    match step s with
    | .next t => runSteps n t
    | .fault why => .fault why
    | .refused why => .refused why

/-! ### The operations by family (R72) -/

/-- The four encodes with their alphabet and padding mode. -/
def encForms : List (Instr × Alphabet × Bool) :=
  [(.encStdNopad, .standard, false), (.encUrlNopad, .urlSafe, false),
   (.encStdPad, .standard, true), (.encUrlPad, .urlSafe, true)]

/-- The four decodes with their alphabet and padding mode. -/
def decForms : List (Instr × Alphabet × Bool) :=
  [(.decStdNopad, .standard, false), (.decUrlNopad, .urlSafe, false),
   (.decStdPad, .standard, true), (.decUrlPad, .urlSafe, true)]

/-- The two encoded-length operations with their padding mode. -/
def encLenForms : List (Instr × Bool) := [(.encLenNopad, false), (.encLenPad, true)]

/-- The two decoded-length operations with their padding mode. -/
def decLenForms : List (Instr × Bool) := [(.decLenNopad, false), (.decLenPad, true)]

/-- The operations that write `OBUF` on success (R57). -/
def writesOutput : Instr → Bool
  | .encStdNopad => true
  | .decStdNopad => true
  | .encLenNopad => false
  | .decLenNopad => false
  | .encUrlNopad => true
  | .decUrlNopad => true
  | .encStdPad => true
  | .decStdPad => true
  | .encLenPad => false
  | .decLenPad => false
  | .encUrlPad => true
  | .decUrlPad => true

/-- The table of R171: which operation can complete with which kind. -/
def mayFailWith : Instr → FailKind → Bool
  | .encStdNopad, k => k == .range
  | .encUrlNopad, k => k == .range
  | .encStdPad, k => k == .range
  | .encUrlPad, k => k == .range
  | .decStdNopad, k => k != .illegalCmd
  | .decUrlNopad, k => k != .illegalCmd
  | .decStdPad, k => k != .illegalCmd
  | .decUrlPad, k => k != .illegalCmd
  | .encLenNopad, k => k == .range
  | .encLenPad, k => k == .range
  | .decLenNopad, _ => false
  | .decLenPad, _ => false

/-! ### Inputs and results -/

/-- `IBUF[0 .. n-1]` holds the sequence `xs` of `n` elements. -/
def State.inputIs (s : State) (xs : List Byte) : Prop :=
  xs.length = s.inCount ∧ ∀ k < xs.length, s.ibuf.readByte k = xs[k]?

/-- Every entry an operation's length covers is defined (R202). -/
def State.inputDefined (s : State) : Prop := ∀ k < s.inCount, (s.ibuf.readByte k).isSome = true

/-- The operation that command byte `c` selects would read an `IBUF` entry that holds no value: it is an
encode or a decode that passes the checks which need no buffer access (R172; assumption 4, DEDUCED), and
an entry below `IN_LEN` is undefined (R30, R208). -/
def State.readsUndefined (s : State) (c : Byte) : Prop :=
  (∃ f ∈ encForms, decodeByte c = .instr f.1 ∧
    s.inCount ≤ s.cfg.inCap ∧ encodedLength s.inCount f.2.2 ≤ s.cfg.outCap ∧
    ∃ k < s.inCount, s.ibuf.readByte k = none) ∨
  (∃ f ∈ decForms, decodeByte c = .instr f.1 ∧
    s.inCount ≤ s.cfg.inCap ∧ decodedLength s.inCount f.2.2 ≤ s.cfg.outCap ∧
    badLength f.2.2 s.inCount = false ∧
    ∃ k < s.inCount, s.ibuf.readByte k = none)

/-- R190: an operation has gone wrong when it completes with `OK = 0`. -/
def State.goneWrong (s : State) : Prop := s.status.done = true ∧ s.status.ok = false

/-- The kind with which a sentinel fails where a value is required (R144). -/
def sentinelKind (v : Entry) : FailKind := if v = entryPad then .misplacedPadding else .invalidSymbol

/-- The number of `=` at the end of a sequence. -/
def trailingPads (symbols : List Byte) : Nat := (symbols.reverse.takeWhile (· == padSym)).length

/-- How many symbols of a decode's input must be values (R146, R147): in padded mode not the one or two
`=` that end it. -/
def requiredCount (padded : Bool) (symbols : List Byte) : Nat :=
  if padded then symbols.length - min 2 (trailingPads symbols) else symbols.length

/-! ### Invariants of a run -/

/-- R27 (a) to (f). -/
structure State.StatusInv (s : State) : Prop where
  not_both : ¬(s.status.busy = true ∧ s.status.done = true)
  ok_done : s.status.ok = true → s.status.done = true ∧ s.status.err = none
  err_done : s.status.err ≠ none → s.status.done = true ∧ s.status.ok = false
  done_result : s.status.done = true → (s.status.ok = true ↔ s.status.err = none)
  busy_clear : s.status.busy = true → s.status.ok = false ∧ s.status.err = none ∧ s.outLen = 0
  not_ok_zero : s.status.ok = false → s.outLen = 0

/-- Both buffers keep their canonical form and no entry outside their capacity (R28, R29, R59). -/
structure State.BufferInv (s : State) : Prop where
  ibuf_wf : s.ibuf.wf = true
  ibuf_within : s.ibuf.within s.cfg.inCap = true
  obuf_wf : s.obuf.wf = true
  obuf_within : s.obuf.within s.cfg.outCap = true

/-- What a completed operation leaves agrees with the command in `CMD`: a reserved byte with
`ILLEGAL_CMD` (R75), a legal one with a kind of its own (R171) or a result that lies in `OBUF` and is
defined (R57). -/
structure State.ResultInv (s : State) : Prop where
  reserved : ∀ why, s.status.done = true → decodeByte s.cmd = .rejected why →
    s.status = Status.failed .illegalCmd
  kind : ∀ i k, s.status.done = true → decodeByte s.cmd = .instr i → s.status.err = some k →
    mayFailWith i k = true
  result : ∀ i, s.status.ok = true → decodeByte s.cmd = .instr i → writesOutput i = true →
    s.outLen.toNat ≤ s.cfg.outCap ∧
    ∀ k < s.outLen.toNat, (s.obuf.readByte k).isSome = true

/-- The invariant of a run. -/
structure State.Inv (s : State) : Prop where
  status : s.StatusInv
  buffers : s.BufferInv
  result : s.ResultInv
  /-- an operation in progress reads no undefined entry (R30: none is started that would) -/
  input : s.status.busy = true → ¬s.readsUndefined s.cmd

/-- The states of runs: any instance just after reset, with any events to come, and what steps make of
it (assumption 14, DEDUCED: nothing before the first reset). -/
inductive Reachable : State → Prop where
  | reset (cfg : Config) (events : List PortEvent) :
    Reachable { State.resetOf cfg with schedule := events }
  | step (s t : State) : Reachable s → step s = .next t → Reachable t

end Sys2Proof.Machine
end

