-- ==== Sys2Proof/Certificates/Slice0/Obligations.lean ====
section
/-! DEFINITION. The statements for the provers. Each docstring names the rule it formalises, or says that
it rests on an inference or a choice of the model. -/

open Sys2Proof Sys2Proof.Machine

/-! ### Commands and their encoding -/

/-- R72: the command byte of each of the twelve operations. -/
def Obligations.CommandBytesDecodeByTable : Prop :=
  decodeByte 0x00 = .instr .encStdNopad ∧ decodeByte 0x01 = .instr .decStdNopad ∧
  decodeByte 0x02 = .instr .encLenNopad ∧ decodeByte 0x03 = .instr .decLenNopad ∧
  decodeByte 0x04 = .instr .encUrlNopad ∧ decodeByte 0x05 = .instr .decUrlNopad ∧
  decodeByte 0x08 = .instr .encStdPad ∧ decodeByte 0x09 = .instr .decStdPad ∧
  decodeByte 0x0A = .instr .encLenPad ∧ decodeByte 0x0B = .instr .decLenPad ∧
  decodeByte 0x0C = .instr .encUrlPad ∧ decodeByte 0x0D = .instr .decUrlPad

/-- R74: the reserved bytes are 0x06, 0x07, 0x0E, 0x0F and 0x10 to 0xFF, and no other. -/
def Obligations.ReservedBytesAreExactlyRejected : Prop :=
  ∀ b : Byte, (∃ why, decodeByte b = .rejected why) ↔
    b = 0x06 ∨ b = 0x07 ∨ b = 0x0E ∨ b = 0x0F ∨ 0x10 ≤ b.toNat

/-- Decoding and encoding agree, on bytes, on whole byte sequences and on the fields of R70; the
fields of the twelve operations are the well-formed ones (R73). -/
def Obligations.DecodeEncodeAgree : Prop :=
  (∀ i rest, decodeBytes (encode i ++ rest) = (.instr i, rest)) ∧
  (∀ b i, decodeByte b = .instr i ↔ b = encodeByte i) ∧
  (∀ b, joinCommand (splitCommand b) = b) ∧ (∀ c, splitCommand (joinCommand c) = c) ∧
  (∀ c : Command, c.wf = true ↔ ∃ i, commandOf i = c)

/-! ### Tables -/

/-- R92 and R93: the closed form of the two encode tables. Their numbers are the codes of R91, which the spec
marks as general knowledge (assumption 8). -/
def Obligations.EncodeTablesInClosedForm : Prop :=
  ∀ (a : Alphabet) (k : Sextet),
    encSymbol a k =
      if k.toNat ≤ 25 then 0x41 + k.setWidth 8
      else if k.toNat ≤ 51 then 0x61 + (k.setWidth 8 - 26)
      else if k.toNat ≤ 61 then 0x30 + (k.setWidth 8 - 52)
      else match a with
        | .standard => if k.toNat = 62 then 0x2B else 0x2F
        | .urlSafe => if k.toNat = 62 then 0x2D else 0x5F

/-- R95: the closed form of the decode tables, the count of each sort of entry, and the four entries in
which the two differ. Their indices are the codes of R91, which the spec marks as general knowledge
(assumption 8). -/
def Obligations.DecodeTablesInClosedForm : Prop :=
  (∀ (a : Alphabet) (c : Byte),
    decEntry a c =
      if 0x41 ≤ c ∧ c ≤ 0x5A then c - 0x41
      else if 0x61 ≤ c ∧ c ≤ 0x7A then c - 0x61 + 26
      else if 0x30 ≤ c ∧ c ≤ 0x39 then c - 0x30 + 52
      else if c = 0x3D then entryPad
      else match a with
        | .standard => if c = 0x2B then 62 else if c = 0x2F then 63 else entryInvalid
        | .urlSafe => if c = 0x2D then 62 else if c = 0x5F then 63 else entryInvalid) ∧
  (∀ a : Alphabet,
    (buildDecodeTable (encTable a)).length = 256 ∧
    (∀ c : Byte, (buildDecodeTable (encTable a))[c.toNat]? = some (decEntry a c)) ∧
    (buildDecodeTable (encTable a)).countP (fun v => !isSentinel v) = 64 ∧
    (buildDecodeTable (encTable a)).count entryPad = 1 ∧
    (buildDecodeTable (encTable a)).count entryInvalid = 191) ∧
  (∀ c : Byte, decEntry .standard c ≠ decEntry .urlSafe c ↔
    c = 0x2B ∨ c = 0x2D ∨ c = 0x2F ∨ c = 0x5F)

/-- R96: the decode table inverts the encode table. -/
def Obligations.DecodeTableInvertsEncodeTable : Prop :=
  ∀ a : Alphabet,
    (∀ k : Sextet, decEntry a (encSymbol a k) = k.setWidth 8) ∧
    decEntry a padSym = entryPad ∧
    (∀ c : Byte, c ≠ padSym → (∀ k : Sextet, encSymbol a k ≠ c) → decEntry a c = entryInvalid)

/-- R97: bit 7 tells the sentinels from the 64 values, bit 0 tells them apart, and four entries are free
of sentinels exactly when bit 7 of their OR is clear. -/
def Obligations.SentinelsByTheHighBit : Prop :=
  entryPad = 0xFE ∧ entryInvalid = 0xFF ∧ entryPad.getLsbD 0 = false ∧
  entryInvalid.getLsbD 0 = true ∧
  (∀ (a : Alphabet) (c : Byte),
    (isSentinel (decEntry a c) = true ↔ decEntry a c = entryPad ∨ decEntry a c = entryInvalid) ∧
    (isSentinel (decEntry a c) = false ↔ (decEntry a c).toNat ≤ 63)) ∧
  (∀ v0 v1 v2 v3 : Entry, (v0 ||| v1 ||| v2 ||| v3).getLsbD 7 = false ↔
    isSentinel v0 = false ∧ isSentinel v1 = false ∧ isSentinel v2 = false ∧ isSentinel v3 = false)

/-- R98: the other alphabet's two symbols, every code from 0x80 on and white space are INVALID; `=` is
PAD in both tables and a successful unpadded decode has none in its input. -/
def Obligations.SymbolsOutsideAnAlphabet : Prop :=
  decEntry .standard 0x2D = entryInvalid ∧ decEntry .standard 0x5F = entryInvalid ∧
  decEntry .urlSafe 0x2B = entryInvalid ∧ decEntry .urlSafe 0x2F = entryInvalid ∧
  (∀ a : Alphabet, (∀ c : Byte, 0x80 ≤ c → decEntry a c = entryInvalid) ∧
    (∀ c ∈ ([0x20, 0x09, 0x0D, 0x0A, 0x00] : List Byte), decEntry a c = entryInvalid) ∧
    decEntry a padSym = entryPad) ∧
  (∀ (a : Alphabet) (symbols out : List Byte),
    decodeSeq a false symbols = .bytes out → padSym ∉ symbols)

/-! ### Length calculations -/

/-- R110: the two formulas and what the rule says of their results. -/
def Obligations.EncodedLengthFormula : Prop :=
  ∀ n : Nat,
    encodedLength n true = (n + 2) / 3 * 4 ∧
    encodedLength n false =
      n / 3 * 4 + (if n % 3 = 0 then 0 else if n % 3 = 1 then 2 else 3) ∧
    encodedLength n true % 4 = 0 ∧ encodedLength n false % 4 ≠ 1 ∧
    (n % 3 = 0 → encodedLength n false = encodedLength n true) ∧
    (n % 3 = 1 → encodedLength n false + 2 = encodedLength n true) ∧
    (n % 3 = 2 → encodedLength n false + 1 = encodedLength n true)

/-- R117 (a) and (b): the bound of a decode is large enough for a round trip, and by how much. -/
def Obligations.DecodedLengthBoundsRoundTrip : Prop :=
  ∀ n : Nat,
    (∀ p : Bool, n ≤ decodedLength (encodedLength n p) p) ∧
    decodedLength (encodedLength n true) true =
      n + (if n % 3 = 0 then 0 else if n % 3 = 1 then 2 else 1) ∧
    decodedLength (encodedLength n false) false = n + (if n % 3 = 0 then 0 else 1)

/-- R113 and R114: `ENCLEN.NOPAD` (0x02) and `ENCLEN.PAD` (0x0A) complete from every state, with the length
or with `RANGE`, and change nothing but `OUT_LEN` and `STATUS`. -/
def Obligations.EncLenCompletes : Prop :=
  decodeByte 0x02 = .instr .encLenNopad ∧ decodeByte 0x0A = .instr .encLenPad ∧
  ∀ s : State,
    exec .encLenNopad s =
      (if s.inLen.toNat ≤ 3221225471 then
        .next { s with
          outLen := BitVec.ofNat 32
            (s.inLen.toNat / 3 * 4 +
              (if s.inLen.toNat % 3 = 0 then 0 else if s.inLen.toNat % 3 = 1 then 2 else 3))
          status := { busy := false, done := true, ok := true, err := none } }
      else
        .next { s with
          outLen := 0
          status := { busy := false, done := true, ok := false, err := some .range } }) ∧
    exec .encLenPad s =
      (if s.inLen.toNat ≤ 3221225469 then
        .next { s with
          outLen := BitVec.ofNat 32 ((s.inLen.toNat + 2) / 3 * 4)
          status := { busy := false, done := true, ok := true, err := none } }
      else
        .next { s with
          outLen := 0
          status := { busy := false, done := true, ok := false, err := some .range } })

/-- R112: a successful `ENCLEN` gives the length itself and never a truncated one; it fails exactly when
the length does not fit 32 bits. -/
def Obligations.EncLenNeverTruncates : Prop :=
  ∀ f ∈ encLenForms, ∀ s t : State, exec f.1 s = .next t →
    (t.status.ok = true ∧ t.outLen.toNat = encodedLength s.inLen.toNat f.2) ∨
    (t.status.ok = false ∧ t.status.err = some .range ∧ t.outLen = 0 ∧
      2 ^ 32 ≤ encodedLength s.inLen.toNat f.2)

/-- R115 and R116: `DECLEN.NOPAD` (0x03) and `DECLEN.PAD` (0x0B) succeed from every state with the length
itself, which fits 32 bits, and change nothing but `OUT_LEN` and `STATUS`. -/
def Obligations.DecLenCompletes : Prop :=
  decodeByte 0x03 = .instr .decLenNopad ∧ decodeByte 0x0B = .instr .decLenPad ∧
  ∀ s : State,
    (exec .decLenNopad s =
      .next { s with
        outLen := BitVec.ofNat 32 (s.inLen.toNat / 4 * 3 + s.inLen.toNat % 4)
        status := { busy := false, done := true, ok := true, err := none } }) ∧
    (exec .decLenPad s =
      .next { s with
        outLen := BitVec.ofNat 32 (s.inLen.toNat / 4 * 3)
        status := { busy := false, done := true, ok := true, err := none } }) ∧
    s.inLen.toNat / 4 * 3 + s.inLen.toNat % 4 < 2 ^ 32

/-! ### Encode -/

/-- R122: the four symbols of full group `j`, in terms of its three bytes. -/
def Obligations.EncodeFullGroupSymbols : Prop :=
  ∀ (a : Alphabet) (p : Bool) (bytes : List Byte) (j : Nat) (b0 b1 b2 : Byte),
    bytes[3 * j]? = some b0 → bytes[3 * j + 1]? = some b1 → bytes[3 * j + 2]? = some b2 →
    (encodeSeq a p bytes)[4 * j]? = some (encSymbol a ((b0 >>> 2).setWidth 6)) ∧
    (encodeSeq a p bytes)[4 * j + 1]? =
      some (encSymbol a ((((b0 &&& 0x03) <<< 4) ||| (b1 >>> 4)).setWidth 6)) ∧
    (encodeSeq a p bytes)[4 * j + 2]? =
      some (encSymbol a ((((b1 &&& 0x0F) <<< 2) ||| (b2 >>> 6)).setWidth 6)) ∧
    (encodeSeq a p bytes)[4 * j + 3]? = some (encSymbol a ((b2 &&& 0x3F).setWidth 6))

/-- R124: what follows the `g` full groups, for each remainder and padding mode. -/
def Obligations.EncodeRemainderAndPadding : Prop :=
  ∀ (a : Alphabet) (p : Bool) (bytes : List Byte) (g : Nat),
    (bytes.length = 3 * g → (encodeSeq a p bytes).length = 4 * g) ∧
    (∀ b, bytes.length = 3 * g + 1 → bytes[3 * g]? = some b →
      (encodeSeq a p bytes).drop (4 * g) =
        [encSymbol a ((b >>> 2).setWidth 6), encSymbol a (((b &&& 0x03) <<< 4).setWidth 6)] ++
          (if p then [0x3D, 0x3D] else [])) ∧
    (∀ b0 b1, bytes.length = 3 * g + 2 →
      bytes[3 * g]? = some b0 → bytes[3 * g + 1]? = some b1 →
      (encodeSeq a p bytes).drop (4 * g) =
        [encSymbol a ((b0 >>> 2).setWidth 6),
         encSymbol a ((((b0 &&& 0x03) <<< 4) ||| (b1 >>> 4)).setWidth 6),
         encSymbol a (((b1 &&& 0x0F) <<< 2).setWidth 6)] ++ (if p then [0x3D] else []))

/-- R129 (a), (c), (e): the length is exact, every symbol is of the chosen alphabet or, in padded mode and
only in the last two positions, `=`; the empty input gives the empty output. -/
def Obligations.EncodeLengthAndAlphabet : Prop :=
  ∀ (a : Alphabet) (p : Bool) (bytes : List Byte),
    (encodeSeq a p bytes).length = encodedLength bytes.length p ∧
    encodeSeq a p [] = [] ∧
    (∀ k c, (encodeSeq a p bytes)[k]? = some c →
      (∃ v : Sextet, c = encSymbol a v) ∨
      (c = 0x3D ∧ p = true ∧ encodedLength bytes.length p ≤ k + 2))

/-- R130 (a): the padded encoding is the unpadded one with 0, 2 or 1 `=` after it. -/
def Obligations.PaddedEncodingIsUnpaddedWithPads : Prop :=
  ∀ (a : Alphabet) (bytes : List Byte),
    encodeSeq a true bytes =
      encodeSeq a false bytes ++
        List.replicate (if bytes.length % 3 = 0 then 0 else 3 - bytes.length % 3) 0x3D ∧
    (0x3D : Byte) ∉ encodeSeq a false bytes

/-- R130 (b): the URL-safe encoding is the standard one with `+` replaced by `-` and `/` by `_`. -/
def Obligations.UrlEncodingIsTranslatedStandard : Prop :=
  ∀ (p : Bool) (bytes : List Byte),
    encodeSeq .urlSafe p bytes =
      (encodeSeq .standard p bytes).map
        fun c => if c = 0x2B then 0x2D else if c = 0x2F then 0x5F else c

/-- R123 for the four encodes `ENC.STD.NOPAD`, `ENC.URL.NOPAD`, `ENC.STD.PAD`, `ENC.URL.PAD` (R125 to R128):
within the capacities and on a defined input the operation completes with success, its output in
`OBUF` from index 0, its length in `OUT_LEN`, every other `OBUF` entry and everything else unchanged. -/
def Obligations.EncodeCompletes : Prop :=
  ∀ f ∈ encForms, ∀ (s : State) (bytes : List Byte),
    s.inputIs bytes → bytes.length ≤ s.cfg.inCap →
    encodedLength bytes.length f.2.2 ≤ s.cfg.outCap →
    ∃ t, exec f.1 s = .next t ∧
      t.status = { busy := false, done := true, ok := true, err := none } ∧
      t.outLen.toNat = encodedLength bytes.length f.2.2 ∧
      (∀ k < encodedLength bytes.length f.2.2,
        t.obuf.readByte k = (encodeSeq f.2.1 f.2.2 bytes)[k]?) ∧
      (∀ k, encodedLength bytes.length f.2.2 ≤ k → t.obuf.readByte k = s.obuf.readByte k) ∧
      t = { s with obuf := t.obuf, outLen := t.outLen, status := t.status }

/-! ### Decode: the pure function -/

/-- R142: which lengths fail, before any symbol is looked at. -/
def Obligations.DecodeLengthCheckComesFirst : Prop :=
  ∀ (a : Alphabet) (symbols : List Byte),
    (symbols.length % 4 ≠ 0 → decodeSeq a true symbols = .err .malformedInput) ∧
    (symbols.length % 4 = 1 → decodeSeq a false symbols = .err .malformedInput) ∧
    (symbols.length % 4 = 0 → decodeSeq a true symbols ≠ .err .malformedInput) ∧
    (symbols.length % 4 ≠ 1 → decodeSeq a false symbols ≠ .err .malformedInput) ∧
    (∀ p, decodeSeq a p [] = .bytes [])

/-- R145: the three bytes of non-terminal group `g`, in terms of its four values; a sentinel in such a
group fails the decode. -/
def Obligations.DecodeNonTerminalGroup : Prop :=
  ∀ (a : Alphabet) (p : Bool) (symbols : List Byte) (g : Nat) (s0 s1 s2 s3 : Byte),
    4 * g + 4 < symbols.length →
    symbols[4 * g]? = some s0 → symbols[4 * g + 1]? = some s1 →
    symbols[4 * g + 2]? = some s2 → symbols[4 * g + 3]? = some s3 →
    (∀ out, decodeSeq a p symbols = .bytes out →
      out[3 * g]? = some ((decEntry a s0 <<< 2) ||| (decEntry a s1 >>> 4)) ∧
      out[3 * g + 1]? = some (((decEntry a s1 &&& 0x0F) <<< 4) ||| (decEntry a s2 >>> 2)) ∧
      out[3 * g + 2]? = some (((decEntry a s2 &&& 0x03) <<< 6) ||| decEntry a s3)) ∧
    ((isSentinel (decEntry a s0) || isSentinel (decEntry a s1) || isSentinel (decEntry a s2) ||
        isSentinel (decEntry a s3)) = true →
      ∃ k, decodeSeq a p symbols = .err k)

/-- R146: unpadded mode. Every symbol must be a value, the first that is none decides the kind, and the
final group of 4, 3 or 2 symbols gives 3, 2 or 1 bytes. -/
def Obligations.UnpaddedDecode : Prop :=
  ∀ (a : Alphabet) (symbols : List Byte), symbols.length % 4 ≠ 1 →
    (∀ v, (symbols.map (decEntry a)).find? isSentinel = some v →
      decodeSeq a false symbols = .err (sentinelKind v)) ∧
    ((symbols.map (decEntry a)).find? isSentinel = none →
      ∃ out, decodeSeq a false symbols = .bytes out ∧
        out.length = symbols.length / 4 * 3 + (symbols.length % 4 - 1) ∧
        (∀ g s0 s1 s2 s3, symbols[4 * g]? = some s0 → symbols[4 * g + 1]? = some s1 →
          symbols[4 * g + 2]? = some s2 → symbols[4 * g + 3]? = some s3 →
          out[3 * g]? = some ((decEntry a s0 <<< 2) ||| (decEntry a s1 >>> 4)) ∧
          out[3 * g + 1]? = some (((decEntry a s1 &&& 0x0F) <<< 4) ||| (decEntry a s2 >>> 2)) ∧
          out[3 * g + 2]? = some (((decEntry a s2 &&& 0x03) <<< 6) ||| decEntry a s3)) ∧
        (∀ s0 s1, symbols.length % 4 ≠ 0 → symbols[symbols.length / 4 * 4]? = some s0 →
          symbols[symbols.length / 4 * 4 + 1]? = some s1 →
          out[symbols.length / 4 * 3]? =
            some ((decEntry a s0 <<< 2) ||| (decEntry a s1 >>> 4))) ∧
        (∀ s1 s2, symbols[symbols.length / 4 * 4 + 1]? = some s1 →
          symbols[symbols.length / 4 * 4 + 2]? = some s2 →
          out[symbols.length / 4 * 3 + 1]? =
            some (((decEntry a s1 &&& 0x0F) <<< 4) ||| (decEntry a s2 >>> 2))))

/-- R147: the padded final group, after any groups of values. Exactly V V V V, V V V P and V V P P are
accepted, with 3, 2 and 1 bytes; any other pattern fails with the kind of the first symbol that is not a
value. -/
def Obligations.PaddedFinalGroupPatterns : Prop :=
  ∀ (a : Alphabet) (pre out : List Byte) (s0 s1 s2 s3 : Byte) (v0 v1 v2 v3 : Entry),
    pre.length % 4 = 0 → (∀ c ∈ pre, isSentinel (decEntry a c) = false) →
    decodeSeq a true pre = .bytes out →
    decEntry a s0 = v0 → decEntry a s1 = v1 → decEntry a s2 = v2 → decEntry a s3 = v3 →
    decodeSeq a true (pre ++ [s0, s1, s2, s3]) =
      if isSentinel v0 then .err (sentinelKind v0)
      else if isSentinel v1 then .err (sentinelKind v1)
      else if v2 = entryPad ∧ v3 = entryPad then .bytes (out ++ [(v0 <<< 2) ||| (v1 >>> 4)])
      else if isSentinel v2 then .err (sentinelKind v2)
      else if v3 = entryPad then
        .bytes (out ++ [(v0 <<< 2) ||| (v1 >>> 4), ((v1 &&& 0x0F) <<< 4) ||| (v2 >>> 2)])
      else if isSentinel v3 then .err (sentinelKind v3)
      else
        .bytes (out ++ [(v0 <<< 2) ||| (v1 >>> 4), ((v1 &&& 0x0F) <<< 4) ||| (v2 >>> 2),
          ((v2 &&& 0x03) <<< 6) ||| v3])

/-- R172 step 4, in both modes: past the length check, the first symbol in index order that stands where
a value is required and is none decides the kind; without one the decode succeeds. -/
def Obligations.FirstOffendingSymbolDecides : Prop :=
  ∀ (a : Alphabet) (p : Bool) (symbols : List Byte), badLength p symbols.length = false →
    (∀ v, ((symbols.take (requiredCount p symbols)).map (decEntry a)).find? isSentinel = some v →
      decodeSeq a p symbols = .err (sentinelKind v)) ∧
    (((symbols.take (requiredCount p symbols)).map (decEntry a)).find? isSentinel = none →
      ∃ out, decodeSeq a p symbols = .bytes out)

/-- R148: the exact count of a successful decode. -/
def Obligations.DecodedCountIsExact : Prop :=
  ∀ (a : Alphabet) (symbols out : List Byte),
    (decodeSeq a true symbols = .bytes out →
      trailingPads symbols ≤ 2 ∧
      out.length + trailingPads symbols = symbols.length / 4 * 3) ∧
    (decodeSeq a false symbols = .bytes out →
      out.length = symbols.length / 4 * 3 +
        (if symbols.length % 4 = 0 then 0 else if symbols.length % 4 = 2 then 1 else 2))

/-- R154: the trailing bits of a short final group are ignored: symbols that differ in them alone decode
alike, after any groups and in both modes. -/
def Obligations.TrailingBitsAreIgnored : Prop :=
  ∀ (a : Alphabet) (pre : List Byte) (x y z z' : Byte),
    pre.length % 4 = 0 → isSentinel (decEntry a z) = false → isSentinel (decEntry a z') = false →
    (decEntry a z >>> 4 = decEntry a z' >>> 4 →
      decodeSeq a false (pre ++ [x, z]) = decodeSeq a false (pre ++ [x, z']) ∧
      decodeSeq a true (pre ++ [x, z, 0x3D, 0x3D]) = decodeSeq a true (pre ++ [x, z', 0x3D, 0x3D])) ∧
    (decEntry a z >>> 2 = decEntry a z' >>> 2 →
      decodeSeq a false (pre ++ [x, y, z]) = decodeSeq a false (pre ++ [x, y, z']) ∧
      decodeSeq a true (pre ++ [x, y, z, 0x3D]) = decodeSeq a true (pre ++ [x, y, z', 0x3D]))

/-- R155: a final group of padding alone, or with one value before three `=`, is a failure with
`MISPLACED_PADDING`, after any groups of values. -/
def Obligations.AllPaddingFinalGroupFails : Prop :=
  ∀ (a : Alphabet) (pre : List Byte) (x : Byte),
    pre.length % 4 = 0 → (∀ c ∈ pre, isSentinel (decEntry a c) = false) →
    isSentinel (decEntry a x) = false →
    decodeSeq a true (pre ++ [0x3D, 0x3D, 0x3D, 0x3D]) = .err .misplacedPadding ∧
    decodeSeq a true (pre ++ [x, 0x3D, 0x3D, 0x3D]) = .err .misplacedPadding

/-! ### Encode and decode together -/

/-- R158: the round trip of the pure functions, for both alphabets and both padding modes. -/
def Obligations.EncodeDecodeRoundTrip : Prop :=
  ∀ (a : Alphabet) (p : Bool) (bytes : List Byte),
    decodeSeq a p (encodeSeq a p bytes) = .bytes bytes

/-- R159: mixed padding modes and mixed alphabets. -/
def Obligations.MixedModesDoNotRoundTrip : Prop :=
  ∀ (a : Alphabet) (bytes : List Byte),
    decodeSeq a false (encodeSeq a true bytes) =
      (if bytes.length % 3 = 0 then .bytes bytes else .err .misplacedPadding) ∧
    decodeSeq a true (encodeSeq a false bytes) =
      (if bytes.length % 3 = 0 then .bytes bytes else .err .malformedInput) ∧
    (∀ p, decodeSeq .urlSafe p (encodeSeq .standard p bytes) =
      if (0x2B : Byte) ∈ encodeSeq .standard p bytes ∨ (0x2F : Byte) ∈ encodeSeq .standard p bytes
      then .err .invalidSymbol else .bytes bytes) ∧
    (∀ p, decodeSeq .standard p (encodeSeq .urlSafe p bytes) =
      if (0x2D : Byte) ∈ encodeSeq .urlSafe p bytes ∨ (0x5F : Byte) ∈ encodeSeq .urlSafe p bytes
      then .err .invalidSymbol else .bytes bytes)

/-- R158 at the level of operations: an encode, its output copied to `IBUF` and `OUT_LEN` to `IN_LEN`, then
the decode of the same alphabet and padding mode, give back the bytes. -/
def Obligations.OperationRoundTrip : Prop :=
  ∀ fd ∈ encForms.zip decForms, ∀ (s : State) (bytes : List Byte),
    s.inputIs bytes → bytes.length ≤ s.cfg.inCap →
    encodedLength bytes.length fd.1.2.2 ≤ min s.cfg.inCap s.cfg.outCap →
    decodedLength (encodedLength bytes.length fd.1.2.2) fd.1.2.2 ≤ s.cfg.outCap →
    ∃ t, exec fd.1.1 s = .next t ∧
      ∀ u : State, u.cfg = s.cfg → u.inLen = t.outLen →
        (∀ k < t.outLen.toNat, u.ibuf.readByte k = t.obuf.readByte k) →
        ∃ v, exec fd.2.1 u = .next v ∧
          v.status = { busy := false, done := true, ok := true, err := none } ∧
          v.outLen.toNat = bytes.length ∧
          ∀ k < bytes.length, v.obuf.readByte k = bytes[k]?

/-! ### Decode: the operations -/

/-- R149 with R150 to R153, for `DEC.STD.NOPAD`, `DEC.URL.NOPAD`, `DEC.STD.PAD`, `DEC.URL.PAD`: within the
capacities, on an input of acceptable length whose symbols are values where they must be, the operation
completes with success, the decoded bytes in `OBUF` from index 0, their count in `OUT_LEN`, every other
`OBUF` entry and everything else unchanged. -/
def Obligations.DecodeCompletes : Prop :=
  ∀ f ∈ decForms, ∀ (s : State) (symbols : List Byte),
    s.inputIs symbols → symbols.length ≤ s.cfg.inCap →
    decodedLength symbols.length f.2.2 ≤ s.cfg.outCap →
    badLength f.2.2 symbols.length = false →
    (∀ c ∈ symbols.take (requiredCount f.2.2 symbols), isSentinel (decEntry f.2.1 c) = false) →
    ∃ t out, decodeSeq f.2.1 f.2.2 symbols = .bytes out ∧ exec f.1 s = .next t ∧
      t.status = { busy := false, done := true, ok := true, err := none } ∧
      t.outLen.toNat = out.length ∧
      (∀ k < out.length, t.obuf.readByte k = out[k]?) ∧
      (∀ k, out.length ≤ k → t.obuf.readByte k = s.obuf.readByte k) ∧
      t = { s with obuf := t.obuf, outLen := t.outLen, status := t.status }

/-- R142 and R177 (a) for the four decodes: within the capacities a bad length completes with
`MALFORMED_INPUT` whatever `IBUF` holds, and `OBUF` is wholly unchanged. That this comes before an
undefined entry is looked at is the model's reading (assumption 4). -/
def Obligations.MalformedLengthTouchesNoBuffer : Prop :=
  ∀ f ∈ decForms, ∀ s : State,
    s.inLen.toNat ≤ s.cfg.inCap → decodedLength s.inLen.toNat f.2.2 ≤ s.cfg.outCap →
    (if f.2.2 then s.inLen.toNat % 4 ≠ 0 else s.inLen.toNat % 4 = 1) →
    exec f.1 s =
      .next { s with
        outLen := 0
        status := { busy := false, done := true, ok := false, err := some .malformedInput } }

/-- R176 and R177 (b) for the four decodes: a decode that meets an offending symbol completes with its
kind and `OUT_LEN = 0`; `OBUF` below the bound is undefined, the rest of it and everything else
unchanged. That an unspecified entry is one without a value is the model's form (assumption 7). -/
def Obligations.FailedDecodeCompletes : Prop :=
  ∀ f ∈ decForms, ∀ (s : State) (symbols : List Byte) (k : FailKind),
    s.inputIs symbols → symbols.length ≤ s.cfg.inCap →
    decodedLength symbols.length f.2.2 ≤ s.cfg.outCap →
    badLength f.2.2 symbols.length = false → decodeSeq f.2.1 f.2.2 symbols = .err k →
    (k = .invalidSymbol ∨ k = .misplacedPadding) ∧
    ∃ t, exec f.1 s = .next t ∧
      t.status = { busy := false, done := true, ok := false, err := some k } ∧ t.outLen = 0 ∧
      (∀ j < decodedLength symbols.length f.2.2, t.obuf.readByte j = none) ∧
      (∀ j, decodedLength symbols.length f.2.2 ≤ j → t.obuf.readByte j = s.obuf.readByte j) ∧
      t = { s with obuf := t.obuf, outLen := t.outLen, status := t.status }

/-! ### All operations -/

/-- R173: `RANGE` by operation. An encode or a decode past a capacity completes with it whatever the
buffers hold and changes nothing but `OUT_LEN` and `STATUS`; no other operation or input gives it. That it
completes on undefined input entries too, where R30 asks for a fault of an operation that depends on
one, is the model's reading of R172 and R177 (assumption 4). -/
def Obligations.RangeFailsBeforeAnyAccess : Prop :=
  (∀ f ∈ encForms, ∀ s : State,
    (s.cfg.inCap < s.inLen.toNat ∨ s.cfg.outCap < encodedLength s.inLen.toNat f.2.2 →
      exec f.1 s = .next { s with
        outLen := 0
        status := { busy := false, done := true, ok := false, err := some .range } }) ∧
    (∀ t, exec f.1 s = .next t → t.status.err = some .range →
      s.cfg.inCap < s.inLen.toNat ∨ s.cfg.outCap < encodedLength s.inLen.toNat f.2.2)) ∧
  (∀ f ∈ decForms, ∀ s : State,
    (s.cfg.inCap < s.inLen.toNat ∨ s.cfg.outCap < decodedLength s.inLen.toNat f.2.2 →
      exec f.1 s = .next { s with
        outLen := 0
        status := { busy := false, done := true, ok := false, err := some .range } }) ∧
    (∀ t, exec f.1 s = .next t → t.status.err = some .range →
      s.cfg.inCap < s.inLen.toNat ∨ s.cfg.outCap < decodedLength s.inLen.toNat f.2.2)) ∧
  (∀ f ∈ encLenForms, ∀ s t : State, exec f.1 s = .next t →
    (t.status.err = some .range ↔ 2 ^ 32 ≤ encodedLength s.inLen.toNat f.2)) ∧
  (∀ f ∈ decLenForms, ∀ s t : State, exec f.1 s = .next t → t.status.err = none)

/-- R30: an operation stops on an undefined entry of its input, and on nothing else: it is an encode or a
decode that has passed the checks that need no buffer access. The place of the check among the others
is the model's reading (assumption 4). -/
def Obligations.FaultOnlyOnUndefinedInput : Prop :=
  (∀ f ∈ encForms, ∀ s : State, exec f.1 s = .fault .undefinedInput ↔
    s.inLen.toNat ≤ s.cfg.inCap ∧ encodedLength s.inLen.toNat f.2.2 ≤ s.cfg.outCap ∧
    ∃ k < s.inLen.toNat, s.ibuf.readByte k = none) ∧
  (∀ f ∈ decForms, ∀ s : State, exec f.1 s = .fault .undefinedInput ↔
    s.inLen.toNat ≤ s.cfg.inCap ∧ decodedLength s.inLen.toNat f.2.2 ≤ s.cfg.outCap ∧
    badLength f.2.2 s.inLen.toNat = false ∧
    ∃ k < s.inLen.toNat, s.ibuf.readByte k = none) ∧
  (∀ i s why, exec i s ≠ .refused why) ∧
  (∀ i s why, exec i s = .fault why → writesOutput i = true)

/-- R190 and R210: on a defined input every one of the twelve operations completes, with `DONE = 1` and
`BUSY = 0`, and with success exactly when no error kind is recorded. -/
def Obligations.EveryOperationCompletes : Prop :=
  ∀ (i : Instr) (s : State), s.inputDefined →
    ∃ t, exec i s = .next t ∧ t.status.done = true ∧ t.status.busy = false ∧
      (t.status.ok = true ↔ t.status.err = none) ∧ (t.status.ok = false → t.outLen = 0)

/-- R41, R57 and R28: no operation changes `CMD`, `IN_LEN`, `IBUF`, the capacities or anything outside
`OUT_LEN`, `STATUS` and `OBUF`. -/
def Obligations.OperationFrame : Prop :=
  ∀ (i : Instr) (s t : State), exec i s = .next t →
    t.cmd = s.cmd ∧ t.inLen = s.inLen ∧ t.ibuf = s.ibuf ∧ t.cfg = s.cfg ∧
    t.hRdata = s.hRdata ∧ t.schedule = s.schedule ∧ t.draws = s.draws ∧
    (∀ k, t.ibuf.readByte k = s.ibuf.readByte k)

/-- R57 and R177, entry by entry: an encode stores below `encodedLength(IN_LEN)`, a decode below
`decodedLength(IN_LEN)` and, when it succeeds, below `OUT_LEN`; a length operation, and every failure
decided before a buffer is accessed, stores nothing. -/
def Obligations.OutputBufferFrame : Prop :=
  (∀ f ∈ encForms, ∀ s t : State, exec f.1 s = .next t → ∀ k,
    (encodedLength s.inCount f.2.2 ≤ k ∨ t.status.ok = false) →
    t.obuf.readByte k = s.obuf.readByte k) ∧
  (∀ f ∈ decForms, ∀ s t : State, exec f.1 s = .next t → ∀ k,
    (decodedLength s.inCount f.2.2 ≤ k ∨ (t.status.ok = true ∧ t.outLen.toNat ≤ k) ∨
      t.status.err = some .malformedInput ∨ t.status.err = some .range) →
    t.obuf.readByte k = s.obuf.readByte k) ∧
  (∀ f ∈ encLenForms ++ decLenForms, ∀ s t : State, exec f.1 s = .next t → ∀ k,
    t.obuf.readByte k = s.obuf.readByte k)

/-- R171: an operation can complete with a kind exactly as the table says, and every operation can
succeed. -/
def Obligations.KindsByOperation : Prop :=
  ∀ i : Instr,
    (∀ k : FailKind, mayFailWith i k = true ↔
      ∃ s t, exec i s = .next t ∧ t.status.err = some k) ∧
    (∃ s t, exec i s = .next t ∧ t.status.ok = true)

/-- R16 and R34: what an operation reports depends on `IN_LEN`, the input entries and the capacities
alone, never on `STATUS`, `OUT_LEN`, `OBUF` or other `IBUF` entries; on success so does its output. -/
def Obligations.OutcomeDependsOnInputsAlone : Prop :=
  ∀ (i : Instr) (s s' t : State), s.cfg = s'.cfg → s.inLen = s'.inLen →
    (∀ k < s.inLen.toNat, s.ibuf.readByte k = s'.ibuf.readByte k) →
    exec i s = .next t →
    ∃ t', exec i s' = .next t' ∧ t'.status = t.status ∧ t'.outLen = t.outLen ∧
      (t.status.ok = true → writesOutput i = true →
        ∀ k < t.outLen.toNat, t'.obuf.readByte k = t.obuf.readByte k)

/-! ### Registers, port and reset -/

/-- R39: reset from any state; the model's own fields and the capacities stay (assumption 13). -/
def Obligations.ResetFromAnyState : Prop :=
  (∀ s : State, transition .reset s =
    .next
      { cfg := s.cfg, cmd := 0x00, inLen := 0x00000000, outLen := 0x00000000,
        status := { busy := false, done := false, ok := false, err := none },
        ibuf := [], obuf := [], hRdata := 0, schedule := s.schedule, draws := s.draws }) ∧
  State.reset.cmd = 0x00 ∧ State.reset.inLen = 0 ∧ State.reset.outLen = 0 ∧
  State.reset.status.word = 0 ∧ State.reset.busyPin = false ∧ State.reset.donePin = false ∧
  (∀ i, State.reset.ibuf.readByte i = none ∧ State.reset.obuf.readByte i = none)

/-- R26 and R170: the word of `STATUS`, bit by bit, with the code of each kind. -/
def Obligations.StatusWordFields : Prop :=
  (∀ t : Status,
    t.word.getLsbD 0 = t.busy ∧ t.word.getLsbD 1 = t.done ∧ t.word.getLsbD 2 = t.ok ∧
    t.word.getLsbD 3 = false ∧ t.word.extractLsb' 4 3 = t.errCode ∧
    t.word.extractLsb' 7 25 = 0) ∧
  (Status.idle.word = 0x00 ∧ Status.running.word = 0x01 ∧ Status.succeeded.word = 0x06) ∧
  ((Status.failed .malformedInput).word = 0x12 ∧ (Status.failed .invalidSymbol).word = 0x22 ∧
    (Status.failed .misplacedPadding).word = 0x32 ∧ (Status.failed .illegalCmd).word = 0x42 ∧
    (Status.failed .range).word = 0x52)

/-- R40: the start of an operation, from any state that is not busy; while busy a write to `CMD` is
ignored. Where the operation would read an undefined entry the model stops at this write (R30; V2 of
93_implementation_defined.md; which operations these are rests on assumptions 4 and 5). -/
def Obligations.CommandWriteStarts : Prop :=
  ∀ (s : State) (v : Data),
    (s.status.busy = false → ¬s.readsUndefined (v.extractLsb' 0 8) →
      hostWrite 0x0000 v s =
        .next { s with
          cmd := v.extractLsb' 0 8
          outLen := 0
          status := { busy := true, done := false, ok := false, err := none } }) ∧
    (s.status.busy = false → s.readsUndefined (v.extractLsb' 0 8) →
      hostWrite 0x0000 v s = .fault .undefinedInput) ∧
    (s.status.busy = true → hostWrite 0x0000 v s = .next s)

/-- R36: `HostWrite` by address. The clauses are told apart by the address; the `CMD` write starts the
operation, and what it answers is the subject of `CommandWriteStarts` (R30; assumption 5). -/
def Obligations.HostWriteByAddress : Prop :=
  ∀ (a : Addr) (v : Data) (s : State),
    (s.status.busy = true → hostWrite a v s = .next s) ∧
    (s.status.busy = false →
      (a.toNat = 0x0000 → ¬s.readsUndefined (v.extractLsb' 0 8) →
        hostWrite a v s = .next (s.start (v.extractLsb' 0 8))) ∧
      (a.toNat = 0x0000 → s.readsUndefined (v.extractLsb' 0 8) →
        hostWrite a v s = .fault .undefinedInput) ∧
      (a.toNat = 0x0001 → hostWrite a v s = .next { s with inLen := v }) ∧
      (∀ i < s.cfg.inCap, a.toNat = 0x1000 + i →
        ∃ t, hostWrite a v s = .next t ∧ t = { s with ibuf := t.ibuf } ∧
          ∀ j, t.ibuf.readByte j =
            if j = i then some (v.extractLsb' 0 8) else s.ibuf.readByte j) ∧
      (a.toNat ≠ 0x0000 → a.toNat ≠ 0x0001 →
        ¬(0x1000 ≤ a.toNat ∧ a.toNat < 0x1000 + s.cfg.inCap) → hostWrite a v s = .next s))

/-- R37: `HostRead` by address: the value at `h_rdata`, and that the read changes nothing of the block (the
pin and the count of draws are the model's own fields). An `OBUF` read while busy, and one of an
undefined entry (R30), gives some zero-extended byte. The clauses are told apart by the address. -/
def Obligations.HostReadByAddress : Prop :=
  ∀ (a : Addr) (s : State),
    (a.toNat = 0x0000 → (hostRead a s).hRdata = s.cmd.setWidth 32) ∧
    (a.toNat = 0x0001 → (hostRead a s).hRdata = s.inLen) ∧
    (a.toNat = 0x0002 → (hostRead a s).hRdata = s.outLen) ∧
    (a.toNat = 0x0003 → (hostRead a s).hRdata =
      0#25 ++ s.status.errCode ++ 0#1 ++ BitVec.ofBool s.status.ok ++
        BitVec.ofBool s.status.done ++ BitVec.ofBool s.status.busy) ∧
    (∀ i < s.cfg.inCap, a.toNat = 0x1000 + i →
      (∀ b, s.ibuf.readByte i = some b → (hostRead a s).hRdata = b.setWidth 32) ∧
      ∃ u : Byte, (hostRead a s).hRdata = u.setWidth 32) ∧
    (∀ i < s.cfg.outCap, a.toNat = 0x2000 + i →
      (∀ b, s.status.busy = false → s.obuf.readByte i = some b →
        (hostRead a s).hRdata = b.setWidth 32) ∧
      ∃ u : Byte, (hostRead a s).hRdata = u.setWidth 32) ∧
    (4 ≤ a.toNat → ¬(0x1000 ≤ a.toNat ∧ a.toNat < 0x1000 + s.cfg.inCap) →
      ¬(0x2000 ≤ a.toNat ∧ a.toNat < 0x2000 + s.cfg.outCap) → (hostRead a s).hRdata = 0) ∧
    hostRead a s = { s with hRdata := (hostRead a s).hRdata, draws := (hostRead a s).draws }

/-- R58 and R180: no host access fails, and none but the `CMD` write changes `STATUS`. A read changes
nothing but the pin and, where its value is unspecified, the count of draws, which makes two such reads
two draws (assumptions 2 and 3); a written entry reads back as written. The one write without a next
state is no failure of the access: it is the `CMD` write of a wrong host program (R30; assumption 5). -/
def Obligations.HostAccessesNeverFail : Prop :=
  ∀ (a : Addr) (s : State),
    transition (.read a) s = .next (hostRead a s) ∧
    (hostRead a s).status = s.status ∧
    (hostRead a s).draws =
      (if (readLocation s (locationOf s.cfg a)).isSome then s.draws else s.draws + 1) ∧
    (∀ v, ((∃ t, transition (.write a v) s = .next t) ↔
        ¬(a.toNat = 0 ∧ s.status.busy = false ∧ s.readsUndefined (v.extractLsb' 0 8))) ∧
      (∀ t, transition (.write a v) s = .next t →
        (a.toNat ≠ 0 → t.status = s.status) ∧
        (∀ i < s.cfg.inCap, a.toNat = 0x1000 + i → s.status.busy = false →
          (hostRead a t).hRdata = (v.extractLsb' 0 8).setWidth 32)))

/-! ### Steps -/

/-- A step runs the decoded instruction: when the engine moves and `CMD` holds an operation, the step is
`exec` of it at the state as the cycle begins (its event taken from the schedule, `h_rdata` 0; the
schedule is the model's, assumption 1). -/
def Obligations.StepRunsTheDecodedOperation : Prop :=
  ∀ (s : State) (i : Instr) (rest : List PortEvent), s.status.busy = true →
    decodeByte s.cmd = .instr i →
    (s.schedule = .engine :: rest ∨ (s.schedule = [] ∧ rest = [])) →
    step s = exec i { s with schedule := rest, hRdata := 0 }

/-- A command placed by `withFetchWord` is the one the very next step runs, from any state. -/
def Obligations.FetchedWordRunsNext : Prop :=
  ∀ (s : State) (w : Nat) (i : Instr), decodeTableWord 8 w = some i →
    step (s.withFetchWord 8 w) =
      exec i (beginCycle (s.start (BitVec.ofNat 8 w)) s.schedule)

/-- R75: a reserved byte starts an operation like any other, the engine's step completes it with
`ILLEGAL_CMD` (`ERR = 4`), `OUT_LEN = 0` and no buffer changed whatever `IN_LEN` and the buffers hold, and
the next `CMD` write starts a new operation, unless that one would read undefined input (R30;
assumptions 4 and 5). -/
def Obligations.ReservedCommandCompletesIllegal : Prop :=
  ∀ (s : State) (v : Data) (why : Reject), s.status.busy = false →
    decodeByte (v.extractLsb' 0 8) = .rejected why →
    transition (.write 0x0000 v) s = .next (s.start (v.extractLsb' 0 8)) ∧
    ∃ t, transition .engine (s.start (v.extractLsb' 0 8)) = .next t ∧
      t = { s with
        cmd := v.extractLsb' 0 8
        outLen := 0
        status := { busy := false, done := true, ok := false, err := some .illegalCmd } } ∧
      t.status.errCode = 4 ∧
      ∀ w, ¬t.readsUndefined (w.extractLsb' 0 8) →
        transition (.write 0x0000 w) t = .next (t.start (w.extractLsb' 0 8))

/-- R76: the engine follows the order of checks of `Execute`, field by field of `CMD`. -/
def Obligations.EngineFollowsExecute : Prop :=
  ∀ s : State,
    engineStep s =
      if s.cmd.extractLsb' 4 4 ≠ 0 then .next s.completeIllegal
      else if s.cmd.extractLsb' 0 2 = 0 then
        encOp (if s.cmd.getLsbD 2 then .urlSafe else .standard) (s.cmd.getLsbD 3) s
      else if s.cmd.extractLsb' 0 2 = 1 then
        decOp (if s.cmd.getLsbD 2 then .urlSafe else .standard) (s.cmd.getLsbD 3) s
      else if s.cmd.getLsbD 2 then .next s.completeIllegal
      else if s.cmd.extractLsb' 0 2 = 2 then encLenOp (s.cmd.getLsbD 3) s
      else decLenOp (s.cmd.getLsbD 3) s

/-- R60 (b), (c) and R204: host accesses between the start and the completion change nothing the operation
depends on, however many they are; the engine's step after them is the step it would have been without
them, but for the pin and the count of draws. -/
def Obligations.AccessesWhileBusyAreInert : Prop :=
  ∀ (events rest : List PortEvent) (s : State), s.status.busy = true →
    (∀ e ∈ events, e ≠ .engine ∧ e ≠ .reset) → s.schedule = events ++ rest →
    ∃ t, runSteps events.length s = .next t ∧
      t = { s with schedule := rest, hRdata := t.hRdata, draws := t.draws }

/-- R60 (d), (e), R179 and R206: a completed operation's results stand until the next `CMD` write or
reset, whatever else happens. -/
def Obligations.ResultsPersistUntilNextStart : Prop :=
  ∀ (e : PortEvent) (s t : State), s.status.busy = false → e ≠ .reset →
    (∀ v, e ≠ .write 0x0000 v) → transition e s = .next t →
    t.status = s.status ∧ t.outLen = s.outLen ∧ t.obuf = s.obuf ∧ t.cmd = s.cmd

/-- R42: the transitions between IDLE, BUSY and DONE: only a `CMD` write leads to BUSY, only completion
from BUSY to DONE, only reset to IDLE, and nothing else leaves a state. -/
def Obligations.StateMachineTransitions : Prop :=
  ∀ (e : PortEvent) (s t : State), transition e s = .next t →
    (e = .reset → t.status.busy = false ∧ t.status.done = false) ∧
    (s.status.busy = false → (∃ v, e = .write 0x0000 v) →
      t.status.busy = true ∧ t.status.done = false) ∧
    (s.status.busy = true → e = .engine → t.status.busy = false ∧ t.status.done = true) ∧
    (e ≠ .reset → (∀ v, e = .write 0x0000 v → s.status.busy = true) →
      (e = .engine → s.status.busy = false) → t.status = s.status)

/-- The invariant holds right after reset, for every instance and whatever is to come. -/
def Obligations.ResetMeetsInvariant : Prop :=
  ∀ (cfg : Config) (events : List PortEvent),
    State.Inv { State.resetOf cfg with schedule := events }

/-- Every step keeps the invariant: the conditions of R27 on `STATUS` and `OUT_LEN`, the canonical form and
bounds of both buffers, the agreement of the result with `CMD` (R57, R75, R171), and that no operation is in
progress which reads an undefined entry (R30). -/
def Obligations.StepKeepsInvariant : Prop :=
  ∀ s t : State, s.Inv → step s = .next t → t.Inv

/-- R27: in every reachable state of every instance the conditions (a) to (f) hold, and `STATUS` reads as
one of the eight values. -/
def Obligations.ReachableStatusValues : Prop :=
  ∀ s : State, Reachable s →
    ¬(s.status.busy = true ∧ s.status.done = true) ∧
    (s.status.ok = true → s.status.done = true ∧ s.status.err = none) ∧
    (s.status.err ≠ none → s.status.done = true ∧ s.status.ok = false) ∧
    (s.status.done = true →
      (s.status.ok = true ∧ s.status.err = none) ∨ (s.status.ok = false ∧ s.status.err ≠ none)) ∧
    (s.status.busy = true → s.status.ok = false ∧ s.status.err = none ∧ s.outLen = 0) ∧
    (s.status.ok = false → s.outLen = 0) ∧
    s.status.word ∈ ([0x00, 0x01, 0x06, 0x12, 0x22, 0x32, 0x42, 0x52] : List Data)

/-- R59 and R173: in every reachable state both buffers hold entries of their own capacity only, in
canonical form, and the result of a successful encode or decode lies in `OBUF` and is defined. -/
def Obligations.ReachableBuffersWithinCapacity : Prop :=
  ∀ s : State, Reachable s →
    s.ibuf.wf = true ∧ s.obuf.wf = true ∧
    (∀ k, s.cfg.inCap ≤ k → s.ibuf.readByte k = none) ∧
    (∀ k, s.cfg.outCap ≤ k → s.obuf.readByte k = none) ∧
    (∀ i, s.status.ok = true → decodeByte s.cmd = .instr i → writesOutput i = true →
      s.outLen.toNat ≤ s.cfg.outCap ∧
      ∀ k < s.outLen.toNat, (s.obuf.readByte k).isSome = true)

/-- R21 and R181: the level outputs equal the `STATUS` bits, and `h_rdata` is 0 after a step that reads
nothing. That a pin's last value is held in the state is the model's form (assumption 2). -/
def Obligations.OutputPins : Prop :=
  ∀ s t : State,
    s.busyPin = s.status.word.getLsbD 0 ∧ s.donePin = s.status.word.getLsbD 1 ∧
    (step s = .next t → (∀ a rest, s.schedule ≠ .read a :: rest) → t.hRdata = 0)

/-- R203, with the statements of R81 as events (assumption 12): writing the input and `IN_LEN`, then `CMD`,
then polling, from any state that is not busy, ends just after the operation's completion on exactly
that input, with `STATUS` on the read port, however many polls there were. -/
def Obligations.HostSequenceRunsOperation : Prop :=
  ∀ (s : State) (i : Instr) (input : List Byte) (polls : Nat) (rest : List PortEvent),
    s.status.busy = false → input.length ≤ s.cfg.inCap →
    s.schedule = scriptEvents [.load input, .run i, .wait polls] ++ rest →
    ∃ u : State, u.inputIs input ∧ u.cmd = encodeByte i ∧ u.cfg = s.cfg ∧ u.obuf = s.obuf ∧
      (∀ k, input.length ≤ k → u.ibuf.readByte k = s.ibuf.readByte k) ∧
      ∀ t, exec i u = .next t →
        runSteps (scriptEvents [.load input, .run i, .wait polls]).length s =
          .next { t with schedule := rest, hRdata := t.status.word }

/-- R190 and R210 with R30: in a run the block itself never goes wrong. Every operation that has started
completes at the engine's step; the one step of a reachable state that has no next state is a `CMD` write
that would start an operation on undefined input (V2 of 93_implementation_defined.md; which operations
these are rests on assumptions 4 and 5). -/
def Obligations.StartedOperationsComplete : Prop :=
  ∀ s : State, Reachable s →
    (s.status.busy = true → ∃ t, engineStep s = .next t ∧ t.status.done = true ∧
      t.status.busy = false) ∧
    ((∃ t, step s = .next t) ∨
      ∃ v rest, s.schedule = .write 0x0000 v :: rest ∧ s.status.busy = false ∧
        s.readsUndefined (v.extractLsb' 0 8) ∧ step s = .fault .undefinedInput)
end

