-- ==== Sys2Proof/Laws/Codec.lean ====
section
/-! SUPPORT. The tables, the bit fields and the two sequence functions: one lemma for each thing a claim
about them needs, so that none of them is unfolded to bits twice. -/

namespace Sys2Proof.Machine

/-! ### Tables (R92 to R97) -/

theorem encSymbol_ne_padSym : ∀ (a : Alphabet) (k : Sextet), encSymbol a k ≠ padSym := by
  intro a; cases a <;> decide

theorem decEntry_encSymbol : ∀ (a : Alphabet) (k : Sextet),
    decEntry a (encSymbol a k) = k.setWidth 8 := by
  intro a; cases a <;> decide

theorem decEntry_padSym (a : Alphabet) : decEntry a padSym = entryPad := by cases a <;> decide

/-- An entry is a value, PAD or INVALID; a value has its bits 7 and 6 clear (R97). -/
theorem decEntry_cases : ∀ (a : Alphabet) (c : Byte),
    (isSentinel (decEntry a c) = false ∧ (decEntry a c).getLsbD 6 = false) ∨
    (decEntry a c = entryPad ∧ c = padSym) ∨ decEntry a c = entryInvalid := by
  intro a; cases a <;> decide

theorem isSentinel_entryPad : isSentinel entryPad = true := rfl

theorem isSentinel_entryInvalid : isSentinel entryInvalid = true := rfl

theorem decEntry_eq_entryPad {a : Alphabet} {c : Byte} (h : decEntry a c = entryPad) :
    c = padSym := by
  rcases decEntry_cases a c with h' | h' | h'
  · rw [h] at h'; cases h'.1
  · exact h'.2
  · rw [h] at h'; cases h'

theorem isSentinel_setWidth : ∀ k : Sextet, isSentinel (k.setWidth 8) = false := by decide

/-! ### The check (R144) -/

theorem checkEntry_decEntry (a : Alphabet) (c : Byte) :
    checkEntry (decEntry a c) =
      if isSentinel (decEntry a c) then some (sentinelKind (decEntry a c)) else none := by
  rcases decEntry_cases a c with ⟨h, -⟩ | ⟨h, -⟩ | h
  · have h1 : decEntry a c ≠ entryInvalid := fun e => by rw [e] at h; cases h
    have h2 : decEntry a c ≠ entryPad := fun e => by rw [e] at h; cases h
    simp [checkEntry, h, h1, h2]
  · rw [h]; rfl
  · rw [h]; rfl

/-- The first sentinel decides (R144, R172). -/
theorem checkAll_map_decEntry (a : Alphabet) (cs : List Byte) :
    checkAll (cs.map (decEntry a)) =
      ((cs.map (decEntry a)).find? isSentinel).map sentinelKind := by
  induction cs with
  | nil => rfl
  | cons c cs ih =>
    simp only [List.map_cons, checkAll, checkEntry_decEntry, List.find?_cons]
    cases h : isSentinel (decEntry a c) <;> simp [ih]

theorem checkAll_eq_none_iff (a : Alphabet) (cs : List Byte) :
    checkAll (cs.map (decEntry a)) = none ↔ ∀ c ∈ cs, isSentinel (decEntry a c) = false := by
  rw [checkAll_map_decEntry]; simp

theorem checkAll_append (vs ws : List Entry) :
    checkAll (vs ++ ws) =
      match checkAll vs with
      | some k => some k
      | none => checkAll ws := by
  induction vs with
  | nil => rfl
  | cons v vs ih =>
    simp only [List.cons_append, checkAll, ih]
    cases checkEntry v <;> rfl

/-! ### Bit fields (R122, R124, R145, R146) -/

theorem bit_cases_six {i : Nat} (h : i < 6) :
    i = 0 ∨ i = 1 ∨ i = 2 ∨ i = 3 ∨ i = 4 ∨ i = 5 := by omega

theorem bit_cases_eight {i : Nat} (h : i < 8) :
    i = 0 ∨ i = 1 ∨ i = 2 ∨ i = 3 ∨ i = 4 ∨ i = 5 ∨ i = 6 ∨ i = 7 := by omega

theorem packThree_eq (b0 b1 b2 : Byte) :
    packThree b0 b1 b2 =
      [(b0 >>> 2).setWidth 6, (((b0 &&& 0x03) <<< 4) ||| (b1 >>> 4)).setWidth 6,
       (((b1 &&& 0x0F) <<< 2) ||| (b2 >>> 6)).setWidth 6, (b2 &&& 0x3F).setWidth 6] := by
  simp only [packThree, List.cons.injEq, and_true]
  refine ⟨?_, ?_, ?_, ?_⟩ <;>
    (refine BitVec.eq_of_getLsbD_eq fun i hi => ?_
     simp only [BitVec.getLsbD_append, BitVec.getLsbD_extractLsb']
     rcases bit_cases_six hi with rfl | rfl | rfl | rfl | rfl | rfl <;> simp)

theorem packTwo_eq (b0 b1 : Byte) :
    packTwo b0 b1 =
      [(b0 >>> 2).setWidth 6, (((b0 &&& 0x03) <<< 4) ||| (b1 >>> 4)).setWidth 6,
       ((b1 &&& 0x0F) <<< 2).setWidth 6] := by
  simp only [packTwo, List.cons.injEq, and_true]
  refine ⟨?_, ?_, ?_⟩ <;>
    (refine BitVec.eq_of_getLsbD_eq fun i hi => ?_
     simp only [BitVec.getLsbD_append, BitVec.getLsbD_extractLsb']
     rcases bit_cases_six hi with rfl | rfl | rfl | rfl | rfl | rfl <;> simp)

theorem packOne_eq (b : Byte) :
    packOne b = [(b >>> 2).setWidth 6, ((b &&& 0x03) <<< 4).setWidth 6] := by
  simp only [packOne, List.cons.injEq, and_true]
  refine ⟨?_, ?_⟩ <;>
    (refine BitVec.eq_of_getLsbD_eq fun i hi => ?_
     simp only [BitVec.getLsbD_append, BitVec.getLsbD_extractLsb']
     rcases bit_cases_six hi with rfl | rfl | rfl | rfl | rfl | rfl <;> simp)

/-- A value: bits 7 and 6 are clear (R97, R144). -/
def IsValue (v : Entry) : Prop := v.getLsbD 7 = false ∧ v.getLsbD 6 = false

theorem isValue_of_not_sentinel {a : Alphabet} {c : Byte}
    (h : isSentinel (decEntry a c) = false) : IsValue (decEntry a c) := by
  rcases decEntry_cases a c with h' | ⟨h', -⟩ | h'
  · exact h'
  · rw [h'] at h; cases h
  · rw [h'] at h; cases h

theorem unpackFour_eq (v0 v1 v2 v3 : Entry) (h1 : IsValue v1) (h2 : IsValue v2)
    (h3 : IsValue v3) :
    unpackFour v0 v1 v2 v3 =
      [(v0 <<< 2) ||| (v1 >>> 4), ((v1 &&& 0x0F) <<< 4) ||| (v2 >>> 2),
       ((v2 &&& 0x03) <<< 6) ||| v3] := by
  obtain ⟨h17, h16⟩ := h1
  obtain ⟨h27, h26⟩ := h2
  obtain ⟨h37, h36⟩ := h3
  simp only [unpackFour, entryValue, List.cons.injEq, and_true]
  refine ⟨?_, ?_, ?_⟩ <;>
    (refine BitVec.eq_of_getLsbD_eq fun i hi => ?_
     simp only [BitVec.getLsbD_append, BitVec.getLsbD_extractLsb']
     rcases bit_cases_eight hi with rfl | rfl | rfl | rfl | rfl | rfl | rfl | rfl <;>
       simp_all)

theorem unpackThree_eq (v0 v1 v2 : Entry) (h1 : IsValue v1) (h2 : IsValue v2) :
    unpackThree v0 v1 v2 =
      [(v0 <<< 2) ||| (v1 >>> 4), ((v1 &&& 0x0F) <<< 4) ||| (v2 >>> 2)] := by
  obtain ⟨h17, h16⟩ := h1
  obtain ⟨h27, h26⟩ := h2
  simp only [unpackThree, entryValue, List.cons.injEq, and_true]
  refine ⟨?_, ?_⟩ <;>
    (refine BitVec.eq_of_getLsbD_eq fun i hi => ?_
     simp only [BitVec.getLsbD_append, BitVec.getLsbD_extractLsb']
     rcases bit_cases_eight hi with rfl | rfl | rfl | rfl | rfl | rfl | rfl | rfl <;>
       simp_all)

theorem unpackTwo_eq (v0 v1 : Entry) (h1 : IsValue v1) :
    unpackTwo v0 v1 = [(v0 <<< 2) ||| (v1 >>> 4)] := by
  obtain ⟨h17, h16⟩ := h1
  simp only [unpackTwo, entryValue, List.cons.injEq, and_true]
  refine BitVec.eq_of_getLsbD_eq fun i hi => ?_
  simp only [BitVec.getLsbD_append, BitVec.getLsbD_extractLsb']
  rcases bit_cases_eight hi with rfl | rfl | rfl | rfl | rfl | rfl | rfl | rfl <;> simp_all

/-! ### Unpacking what was packed, group by group -/

/-- The table entry of a value (R96). -/
def entryOf (k : Sextet) : Entry := k.setWidth 8

theorem unpackGroup_packThree (b0 b1 b2 : Byte) :
    unpackGroup ((packThree b0 b1 b2).map entryOf) = [b0, b1, b2] := by
  simp only [packThree, List.map_cons, List.map_nil, unpackGroup, unpackFour, entryValue,
    entryOf, List.cons.injEq, and_true]
  refine ⟨?_, ?_, ?_⟩ <;>
    (refine BitVec.eq_of_getLsbD_eq fun i hi => ?_
     simp only [BitVec.getLsbD_append, BitVec.getLsbD_extractLsb', BitVec.getLsbD_setWidth]
     rcases bit_cases_eight hi with rfl | rfl | rfl | rfl | rfl | rfl | rfl | rfl <;> simp)

theorem unpackGroup_packTwo (b0 b1 : Byte) :
    unpackGroup ((packTwo b0 b1).map entryOf) = [b0, b1] := by
  simp only [packTwo, List.map_cons, List.map_nil, unpackGroup, unpackThree, entryValue,
    entryOf, List.cons.injEq, and_true]
  refine ⟨?_, ?_⟩ <;>
    (refine BitVec.eq_of_getLsbD_eq fun i hi => ?_
     simp only [BitVec.getLsbD_append, BitVec.getLsbD_extractLsb', BitVec.getLsbD_setWidth]
     rcases bit_cases_eight hi with rfl | rfl | rfl | rfl | rfl | rfl | rfl | rfl <;> simp)

theorem unpackGroup_packOne (b : Byte) :
    unpackGroup ((packOne b).map entryOf) = [b] := by
  simp only [packOne, List.map_cons, List.map_nil, unpackGroup, unpackTwo, entryValue,
    entryOf, List.cons.injEq, and_true]
  refine BitVec.eq_of_getLsbD_eq fun i hi => ?_
  simp only [BitVec.getLsbD_append, BitVec.getLsbD_extractLsb', BitVec.getLsbD_setWidth]
  rcases bit_cases_eight hi with rfl | rfl | rfl | rfl | rfl | rfl | rfl | rfl <;> simp

theorem map_decEntry_encSymbol (a : Alphabet) (ks : List Sextet) :
    (ks.map (encSymbol a)).map (decEntry a) = ks.map entryOf := by
  rw [List.map_map]
  exact List.map_congr_left fun k _ => decEntry_encSymbol a k

/-! ### The encode sequence (R121) -/

section
variable (a : Alphabet) (p : Bool)

@[simp] theorem encodeSeq_nil : encodeSeq a p [] = [] := rfl

theorem encodeSeq_one (b : Byte) :
    encodeSeq a p [b] = (packOne b).map (encSymbol a) ++ padding p 2 := rfl

theorem encodeSeq_two (b0 b1 : Byte) :
    encodeSeq a p [b0, b1] = (packTwo b0 b1).map (encSymbol a) ++ padding p 1 := rfl

theorem encodeSeq_group (b0 b1 b2 : Byte) (rest : List Byte) :
    encodeSeq a p (b0 :: b1 :: b2 :: rest) =
      (packThree b0 b1 b2).map (encSymbol a) ++ encodeSeq a p rest := by
  cases rest <;> rfl

end

/-- Induction over the groups of three of a byte sequence. -/
theorem threes_induction {P : List Byte → Prop} (nil : P []) (one : ∀ b, P [b])
    (two : ∀ b0 b1, P [b0, b1]) (group : ∀ b0 b1 b2 rest, P rest → P (b0 :: b1 :: b2 :: rest)) :
    ∀ bs, P bs
  | [] => nil
  | [b] => one b
  | [b0, b1] => two b0 b1
  | b0 :: b1 :: b2 :: rest => group b0 b1 b2 rest (threes_induction nil one two group rest)

theorem encodedLength_add_three (n : Nat) (p : Bool) :
    encodedLength (n + 3) p = encodedLength n p + 4 := by
  unfold encodedLength
  cases p <;> simp only [if_true, Bool.false_eq_true, if_false, Nat.add_mod_right]
  all_goals omega

theorem encodeSeq_length (a : Alphabet) (p : Bool) (bs : List Byte) :
    (encodeSeq a p bs).length = encodedLength bs.length p := by
  induction bs using threes_induction with
  | nil => cases p <;> rfl
  | one b => cases p <;> simp [encodeSeq_one, packOne, padding, encodedLength]
  | two b0 b1 => cases p <;> simp [encodeSeq_two, packTwo, padding, encodedLength]
  | group b0 b1 b2 rest ih =>
    rw [encodeSeq_group, List.length_append, ih, List.length_cons, List.length_cons,
      List.length_cons, encodedLength_add_three, Nat.add_comm]
    rfl

/-! ### The decode sequence (R141, R143) -/

section
variable (a : Alphabet) (p : Bool)

@[simp] theorem decodeGroups_nil : decodeGroups a p [] = .bytes [] := rfl

theorem decodeGroups_two (s0 s1 : Byte) :
    decodeGroups a p [s0, s1] = finalGroup p [decEntry a s0, decEntry a s1] := rfl

theorem decodeGroups_three (s0 s1 s2 : Byte) :
    decodeGroups a p [s0, s1, s2] =
      finalGroup p [decEntry a s0, decEntry a s1, decEntry a s2] := rfl

theorem decodeGroups_four (s0 s1 s2 s3 : Byte) :
    decodeGroups a p [s0, s1, s2, s3] =
      finalGroup p [decEntry a s0, decEntry a s1, decEntry a s2, decEntry a s3] := rfl

theorem decodeGroups_group (s0 s1 s2 s3 : Byte) (rest : List Byte) (h : rest ≠ []) :
    decodeGroups a p (s0 :: s1 :: s2 :: s3 :: rest) =
      match checkAll ([s0, s1, s2, s3].map (decEntry a)) with
      | some k => .err k
      | none =>
        (decodeGroups a p rest).prepend (unpackGroup ([s0, s1, s2, s3].map (decEntry a))) := by
  cases rest with
  | nil => exact absurd rfl h
  | cons s4 rest => rfl

end

/-- Induction over the groups of four of a symbol sequence; the last group, of one to four symbols, is a
case of its own (R143). -/
theorem fours_induction {P : List Byte → Prop} (nil : P []) (one : ∀ s, P [s])
    (two : ∀ s0 s1, P [s0, s1]) (three : ∀ s0 s1 s2, P [s0, s1, s2])
    (four : ∀ s0 s1 s2 s3, P [s0, s1, s2, s3])
    (group : ∀ s0 s1 s2 s3 rest, rest ≠ [] → P rest → P (s0 :: s1 :: s2 :: s3 :: rest)) :
    ∀ ss, P ss
  | [] => nil
  | [s] => one s
  | [s0, s1] => two s0 s1
  | [s0, s1, s2] => three s0 s1 s2
  | [s0, s1, s2, s3] => four s0 s1 s2 s3
  | s0 :: s1 :: s2 :: s3 :: s4 :: rest =>
    group s0 s1 s2 s3 (s4 :: rest) (by simp)
      (fours_induction nil one two three four group (s4 :: rest))

end Sys2Proof.Machine
end

