-- ==== Sys2Proof/Laws/Memory.lean ====
section
/-! SUPPORT. What the buffer operations do, said once: reads after writes, and that every operation keeps
the canonical form and the buffer's bounds. -/

namespace Sys2Proof.Machine

/-! ### Reads after writes -/

@[simp] theorem Memory.readByte_nil (i : Nat) : Memory.readByte [] i = none := rfl

theorem Memory.readByte_cons (c : Host.Cell) (m : Memory) (i : Nat) :
    Memory.readByte (c :: m) i = if c.1 = i then some c.2 else Memory.readByte m i := rfl

theorem Memory.readByte_writeByte (m : Memory) (i j : Nat) (b : Byte) :
    (m.writeByte i b).readByte j = if j = i then some b else m.readByte j := by
  by_cases hji : j = i
  · subst hji
    rw [if_pos rfl]
    induction m with
    | nil => simp [Memory.writeByte, Memory.readByte]
    | cons c rest ih =>
      simp only [Memory.writeByte]
      split
      · simp [Memory.readByte]
      · split
        · simp [Memory.readByte]
        · rw [Memory.readByte_cons, if_neg (by omega), ih]
  · rw [if_neg hji]
    induction m with
    | nil => simp [Memory.writeByte, Memory.readByte, Ne.symm hji]
    | cons c rest ih =>
      simp only [Memory.writeByte]
      split
      · rw [Memory.readByte_cons, if_neg (Ne.symm hji)]
      · split
        · rw [Memory.readByte_cons, if_neg (Ne.symm hji), Memory.readByte_cons, if_neg (by omega)]
        · rw [Memory.readByte_cons, ih, Memory.readByte_cons]

theorem Memory.readByte_writeRun (m : Memory) (bs : List Byte) (i j : Nat) :
    (m.writeRun i bs).readByte j =
      if i ≤ j ∧ j < i + bs.length then bs[j - i]? else m.readByte j := by
  induction bs generalizing i with
  | nil => rw [if_neg (by simp)]; rfl
  | cons b bs ih =>
    simp only [Memory.writeRun, Memory.readByte_writeByte, ih, List.length_cons]
    by_cases h : j = i
    · subst h; simp
    · rw [if_neg h]
      by_cases h1 : i + 1 ≤ j ∧ j < i + 1 + bs.length
      · rw [if_pos h1, if_pos (by omega), show j - i = (j - (i + 1)) + 1 by omega,
          List.getElem?_cons_succ]
      · rw [if_neg h1, if_neg (by omega)]

theorem Memory.readByte_undefineBelow (m : Memory) (n i : Nat) :
    (m.undefineBelow n).readByte i = if i < n then none else m.readByte i := by
  induction m with
  | nil => simp [Memory.undefineBelow]
  | cons c rest ih =>
    have ih' : Memory.readByte (List.filter (fun c => decide (n ≤ c.1)) rest) i
        = if i < n then none else Memory.readByte rest i := ih
    simp only [Memory.undefineBelow, List.filter_cons]
    split
    · rename_i hn
      rw [Memory.readByte_cons, ih', Memory.readByte_cons]
      have := of_decide_eq_true hn
      by_cases hc : c.1 = i
      · simp only [if_pos hc]; rw [if_neg (by omega)]
      · simp only [if_neg hc]
    · rename_i hn
      rw [ih', Memory.readByte_cons]
      have : ¬n ≤ c.1 := fun hle => hn (decide_eq_true hle)
      by_cases hc : c.1 = i
      · rw [if_pos (by omega), if_pos (by omega)]
      · simp only [if_neg hc]

@[simp] theorem Memory.undefineBelow_zero (m : Memory) : m.undefineBelow 0 = m := by
  simp [Memory.undefineBelow]

@[simp] theorem Memory.writeRun_nil (m : Memory) (i : Nat) : m.writeRun i [] = m := rfl

/-! ### Reading a run of entries -/

theorem Memory.readRun_eq_some_iff (m : Memory) (i n : Nat) (bs : List Byte) :
    m.readRun i n = some bs ↔
      bs.length = n ∧ ∀ k < n, m.readByte (i + k) = bs[k]? := by
  induction n generalizing i bs with
  | zero => cases bs <;> simp [Memory.readRun]
  | succ n ih =>
    simp only [Memory.readRun]
    constructor
    · intro h
      split at h
      · rename_i b tail hb ht
        cases h
        obtain ⟨hl, hk⟩ := (ih _ _).mp ht
        refine ⟨by simp [hl], fun k hkn => ?_⟩
        cases k with
        | zero => simpa using hb
        | succ k => simpa [Nat.add_assoc, Nat.add_comm 1 k] using hk k (by omega)
      · cases h
    · rintro ⟨hl, hk⟩
      cases bs with
      | nil => simp at hl
      | cons b tail =>
        have h0 := hk 0 (by omega)
        have ht : m.readRun (i + 1) n = some tail := by
          refine (ih _ _).mpr ⟨by simpa using hl, fun k hkn => ?_⟩
          simpa [Nat.add_assoc, Nat.add_comm 1 k] using hk (k + 1) (by omega)
        simp only [Nat.add_zero, List.getElem?_cons_zero] at h0
        simp [h0, ht]

theorem Memory.readRun_isSome_iff (m : Memory) (i n : Nat) :
    (∃ bs, m.readRun i n = some bs) ↔ ∀ k < n, (m.readByte (i + k)).isSome = true := by
  induction n generalizing i with
  | zero => simp [Memory.readRun]
  | succ n ih =>
    constructor
    · rintro ⟨bs, h⟩ k hk
      obtain ⟨hl, hr⟩ := (Memory.readRun_eq_some_iff _ _ _ _).mp h
      rw [hr k hk]; simp; omega
    · intro h
      obtain ⟨tail, ht⟩ := (ih (i + 1)).mpr fun k hk => by
        simpa [Nat.add_assoc, Nat.add_comm 1 k] using h (k + 1) (by omega)
      obtain ⟨b, hb⟩ := Option.isSome_iff_exists.mp (h 0 (by omega))
      exact ⟨b :: tail, by simp only [Nat.add_zero] at hb; simp [Memory.readRun, hb, ht]⟩

/-! ### The canonical form -/

theorem Memory.wf_iff (m : Memory) : m.wf = true ↔ m.Pairwise fun c d => c.1 < d.1 := by
  induction m with
  | nil => simp [Memory.wf]
  | cons c rest ih =>
    cases rest with
    | nil => simp [Memory.wf]
    | cons d rest =>
      simp only [Memory.wf, Bool.and_eq_true, decide_eq_true_eq, ih]
      constructor
      · rintro ⟨hcd, hp⟩
        refine List.pairwise_cons.mpr ⟨fun e he => ?_, hp⟩
        rcases List.mem_cons.mp he with rfl | he
        · exact hcd
        · exact Nat.lt_trans hcd (List.rel_of_pairwise_cons hp he)
      · exact fun hp => ⟨List.rel_of_pairwise_cons hp (by simp), hp.of_cons⟩

theorem Memory.mem_writeByte (m : Memory) (i : Nat) (b : Byte) (c : Host.Cell)
    (h : c ∈ m.writeByte i b) : c = (i, b) ∨ c ∈ m := by
  induction m with
  | nil => simpa [Memory.writeByte] using h
  | cons d rest ih =>
    simp only [Memory.writeByte] at h
    split at h
    · simpa using h
    · split at h
      · rcases List.mem_cons.mp h with h | h
        · exact .inl h
        · exact .inr (List.mem_cons_of_mem _ h)
      · rcases List.mem_cons.mp h with h | h
        · exact .inr (by simp [h])
        · rcases ih h with h | h
          · exact .inl h
          · exact .inr (List.mem_cons_of_mem _ h)

theorem Memory.writeByte_wf (m : Memory) (i : Nat) (b : Byte) (h : m.wf = true) :
    (m.writeByte i b).wf = true := by
  rw [Memory.wf_iff] at h ⊢
  induction m with
  | nil => simp [Memory.writeByte]
  | cons d rest ih =>
    have hrest := h.of_cons
    simp only [Memory.writeByte]
    split
    · rename_i hlt
      refine List.pairwise_cons.mpr ⟨fun e he => ?_, h⟩
      rcases List.mem_cons.mp he with rfl | he
      · exact hlt
      · exact Nat.lt_trans hlt (List.rel_of_pairwise_cons h he)
    · split
      · rename_i heq
        refine List.pairwise_cons.mpr ⟨fun e he => ?_, hrest⟩
        exact heq ▸ List.rel_of_pairwise_cons h he
      · refine List.pairwise_cons.mpr ⟨fun e he => ?_, ih hrest⟩
        rcases Memory.mem_writeByte _ _ _ _ he with rfl | he
        · simp only; omega
        · exact List.rel_of_pairwise_cons h he

theorem Memory.writeRun_wf (m : Memory) (bs : List Byte) (i : Nat) (h : m.wf = true) :
    (m.writeRun i bs).wf = true := by
  induction bs generalizing i with
  | nil => exact h
  | cons b bs ih => exact Memory.writeByte_wf _ _ _ (ih (i + 1))

theorem Memory.undefineBelow_wf (m : Memory) (n : Nat) (h : m.wf = true) :
    (m.undefineBelow n).wf = true := by
  rw [Memory.wf_iff] at h ⊢
  exact h.filter _

/-- Equal contents are equal data, in canonical form. -/
theorem Memory.eq_of_readByte_eq (m n : Memory) (hm : m.wf = true) (hn : n.wf = true)
    (h : ∀ i, m.readByte i = n.readByte i) : m = n := by
  have miss : ∀ (c : Host.Cell) (l : Memory), Memory.wf (c :: l) = true → ∀ i ≤ c.1,
      Memory.readByte l i = none := by
    intro c l hl i hi
    have hp := (Memory.wf_iff _).mp hl
    clear hl
    induction l with
    | nil => rfl
    | cons d l ih =>
      have hd := List.rel_of_pairwise_cons hp (List.mem_cons_self ..)
      rw [Memory.readByte_cons, if_neg (by omega)]
      refine ih (List.pairwise_cons.mpr ⟨fun e he => ?_, hp.of_cons.of_cons⟩)
      exact List.rel_of_pairwise_cons hp (List.mem_cons_of_mem _ he)
  induction m generalizing n with
  | nil =>
    cases n with
    | nil => rfl
    | cons d n => simpa [Memory.readByte_cons] using h d.1
  | cons c m ih =>
    cases n with
    | nil => simpa [Memory.readByte_cons] using h c.1
    | cons d n =>
      have hkey : c.1 = d.1 := by
        rcases Nat.lt_trichotomy c.1 d.1 with hlt | heq | hgt
        · have := h c.1
          rw [Memory.readByte_cons, if_pos rfl, Memory.readByte_cons, if_neg (by omega),
            miss d n hn c.1 (by omega)] at this
          cases this
        · exact heq
        · have := h d.1
          rw [Memory.readByte_cons, if_neg (by omega), miss c m hm d.1 (by omega),
            Memory.readByte_cons, if_pos rfl] at this
          cases this
      have hval : c.2 = d.2 := by
        have := h c.1
        rw [Memory.readByte_cons, if_pos rfl, Memory.readByte_cons, if_pos hkey.symm] at this
        exact Option.some.inj this
      have htail : m = n := by
        refine ih n ?_ ?_ fun i => ?_
        · rw [Memory.wf_iff] at hm ⊢; exact hm.of_cons
        · rw [Memory.wf_iff] at hn ⊢; exact hn.of_cons
        · by_cases hi : c.1 = i
          · rw [miss c m hm i (by omega), miss d n hn i (by omega)]
          · have := h i
            rwa [Memory.readByte_cons, if_neg hi, Memory.readByte_cons,
              if_neg (by omega)] at this
      rw [htail, Prod.ext hkey hval]

/-! ### Bounds -/

theorem Memory.within_iff (m : Memory) (cap : Nat) :
    m.within cap = true ↔ ∀ c ∈ m, c.1 < cap := by simp [Memory.within]

theorem Memory.writeByte_within (m : Memory) (i : Nat) (b : Byte) (cap : Nat) (hi : i < cap)
    (h : m.within cap = true) : (m.writeByte i b).within cap = true := by
  rw [Memory.within_iff] at h ⊢
  intro c hc
  rcases Memory.mem_writeByte _ _ _ _ hc with rfl | hc
  · exact hi
  · exact h c hc

theorem Memory.writeRun_within (m : Memory) (bs : List Byte) (i cap : Nat)
    (hi : i + bs.length ≤ cap) (h : m.within cap = true) :
    (m.writeRun i bs).within cap = true := by
  induction bs generalizing i with
  | nil => exact h
  | cons b bs ih =>
    simp only [List.length_cons] at hi
    exact Memory.writeByte_within _ _ _ _ (by omega) (ih (i + 1) (by omega))

theorem Memory.undefineBelow_within (m : Memory) (n cap : Nat) (h : m.within cap = true) :
    (m.undefineBelow n).within cap = true := by
  rw [Memory.within_iff] at h ⊢
  exact fun c hc => h c (List.mem_of_mem_filter hc)

end Sys2Proof.Machine
end

