-- ==== Sys2Proof/Laws/State.lean ====
section
/-! SUPPORT. One lemma per field per update of the state, true by `rfl`, so that no proof unfolds a record
update. -/

namespace Sys2Proof.Machine

/-! ### Start (R40) -/

@[simp] theorem State.start_cfg (s : State) (c : Byte) : (s.start c).cfg = s.cfg := rfl
@[simp] theorem State.start_cmd (s : State) (c : Byte) : (s.start c).cmd = c := rfl
@[simp] theorem State.start_inLen (s : State) (c : Byte) : (s.start c).inLen = s.inLen := rfl
@[simp] theorem State.start_outLen (s : State) (c : Byte) : (s.start c).outLen = 0 := rfl
@[simp] theorem State.start_status (s : State) (c : Byte) :
    (s.start c).status = Status.running := rfl
@[simp] theorem State.start_ibuf (s : State) (c : Byte) : (s.start c).ibuf = s.ibuf := rfl
@[simp] theorem State.start_obuf (s : State) (c : Byte) : (s.start c).obuf = s.obuf := rfl
@[simp] theorem State.start_hRdata (s : State) (c : Byte) : (s.start c).hRdata = s.hRdata := rfl
@[simp] theorem State.start_schedule (s : State) (c : Byte) :
    (s.start c).schedule = s.schedule := rfl
@[simp] theorem State.start_draws (s : State) (c : Byte) : (s.start c).draws = s.draws := rfl

/-! ### Completion (R41, R176) -/

section
variable (s : State) (len : Nat) (out : List Byte) (k : FailKind) (n : Nat) (r : OpResult)

@[simp] theorem State.complete_cfg : (s.complete r).cfg = s.cfg := by cases r <;> rfl
@[simp] theorem State.complete_cmd : (s.complete r).cmd = s.cmd := by cases r <;> rfl
@[simp] theorem State.complete_inLen : (s.complete r).inLen = s.inLen := by cases r <;> rfl
@[simp] theorem State.complete_ibuf : (s.complete r).ibuf = s.ibuf := by cases r <;> rfl
@[simp] theorem State.complete_hRdata : (s.complete r).hRdata = s.hRdata := by cases r <;> rfl
@[simp] theorem State.complete_schedule : (s.complete r).schedule = s.schedule := by
  cases r <;> rfl
@[simp] theorem State.complete_draws : (s.complete r).draws = s.draws := by cases r <;> rfl
@[simp] theorem State.complete_busy : (s.complete r).status.busy = false := by cases r <;> rfl
@[simp] theorem State.complete_done : (s.complete r).status.done = true := by cases r <;> rfl
@[simp] theorem State.complete_ok_status :
    (s.complete (.ok len out)).status = Status.succeeded := rfl
@[simp] theorem State.complete_ok_outLen :
    (s.complete (.ok len out)).outLen = BitVec.ofNat 32 len := rfl
@[simp] theorem State.complete_ok_obuf :
    (s.complete (.ok len out)).obuf = s.obuf.writeRun 0 out := rfl
@[simp] theorem State.complete_fail_status :
    (s.complete (.fail k n)).status = Status.failed k := rfl
@[simp] theorem State.complete_fail_outLen : (s.complete (.fail k n)).outLen = 0 := rfl
@[simp] theorem State.complete_fail_obuf :
    (s.complete (.fail k n)).obuf = s.obuf.undefineBelow n := rfl

end

/-! ### The values of `STATUS` -/

@[simp] theorem Status.running_busy : Status.running.busy = true := rfl
@[simp] theorem Status.running_done : Status.running.done = false := rfl
@[simp] theorem Status.running_ok : Status.running.ok = false := rfl
@[simp] theorem Status.running_err : Status.running.err = none := rfl
@[simp] theorem Status.succeeded_busy : Status.succeeded.busy = false := rfl
@[simp] theorem Status.succeeded_done : Status.succeeded.done = true := rfl
@[simp] theorem Status.succeeded_ok : Status.succeeded.ok = true := rfl
@[simp] theorem Status.succeeded_err : Status.succeeded.err = none := rfl
@[simp] theorem Status.failed_busy (k : FailKind) : (Status.failed k).busy = false := rfl
@[simp] theorem Status.failed_done (k : FailKind) : (Status.failed k).done = true := rfl
@[simp] theorem Status.failed_ok (k : FailKind) : (Status.failed k).ok = false := rfl
@[simp] theorem Status.failed_err (k : FailKind) : (Status.failed k).err = some k := rfl

/-! ### Reset (R39) -/

@[simp] theorem State.resetNow_cfg (s : State) : s.resetNow.cfg = s.cfg := rfl
@[simp] theorem State.resetNow_cmd (s : State) : s.resetNow.cmd = 0 := rfl
@[simp] theorem State.resetNow_inLen (s : State) : s.resetNow.inLen = 0 := rfl
@[simp] theorem State.resetNow_outLen (s : State) : s.resetNow.outLen = 0 := rfl
@[simp] theorem State.resetNow_status (s : State) : s.resetNow.status = Status.idle := rfl
@[simp] theorem State.resetNow_ibuf (s : State) : s.resetNow.ibuf = [] := rfl
@[simp] theorem State.resetNow_obuf (s : State) : s.resetNow.obuf = [] := rfl
@[simp] theorem State.resetNow_hRdata (s : State) : s.resetNow.hRdata = 0 := rfl
@[simp] theorem State.resetNow_schedule (s : State) : s.resetNow.schedule = s.schedule := rfl
@[simp] theorem State.resetNow_draws (s : State) : s.resetNow.draws = s.draws := rfl

/-! ### The beginning of a cycle (R21) -/

section
variable (s : State) (rest : List PortEvent)

@[simp] theorem beginCycle_cfg : (beginCycle s rest).cfg = s.cfg := rfl
@[simp] theorem beginCycle_cmd : (beginCycle s rest).cmd = s.cmd := rfl
@[simp] theorem beginCycle_inLen : (beginCycle s rest).inLen = s.inLen := rfl
@[simp] theorem beginCycle_outLen : (beginCycle s rest).outLen = s.outLen := rfl
@[simp] theorem beginCycle_status : (beginCycle s rest).status = s.status := rfl
@[simp] theorem beginCycle_ibuf : (beginCycle s rest).ibuf = s.ibuf := rfl
@[simp] theorem beginCycle_obuf : (beginCycle s rest).obuf = s.obuf := rfl
@[simp] theorem beginCycle_hRdata : (beginCycle s rest).hRdata = 0 := rfl
@[simp] theorem beginCycle_schedule : (beginCycle s rest).schedule = rest := rfl
@[simp] theorem beginCycle_draws : (beginCycle s rest).draws = s.draws := rfl

end

/-! ### Host reads (R37): only the pin and the count of draws change -/

section
variable (a : Addr) (s : State)

@[simp] theorem hostRead_cfg : (hostRead a s).cfg = s.cfg := by unfold hostRead; split <;> rfl
@[simp] theorem hostRead_cmd : (hostRead a s).cmd = s.cmd := by unfold hostRead; split <;> rfl
@[simp] theorem hostRead_inLen : (hostRead a s).inLen = s.inLen := by
  unfold hostRead; split <;> rfl
@[simp] theorem hostRead_outLen : (hostRead a s).outLen = s.outLen := by
  unfold hostRead; split <;> rfl
@[simp] theorem hostRead_status : (hostRead a s).status = s.status := by
  unfold hostRead; split <;> rfl
@[simp] theorem hostRead_ibuf : (hostRead a s).ibuf = s.ibuf := by
  unfold hostRead; split <;> rfl
@[simp] theorem hostRead_obuf : (hostRead a s).obuf = s.obuf := by
  unfold hostRead; split <;> rfl
@[simp] theorem hostRead_schedule : (hostRead a s).schedule = s.schedule := by
  unfold hostRead; split <;> rfl

end

end Sys2Proof.Machine
end

