-- ==== Sys2Proof/Laws/Ops.lean ====
section
/-! SUPPORT. One lemma per shared operation that says once all it can do; the claims cite these instead of
unfolding the operations. -/

namespace Sys2Proof.Machine

/-! ### The input (R28, R30) -/

theorem readInput_eq_some_iff (s : State) (bs : List Byte) :
    s.readInput s.inCount = some bs ↔ s.inputIs bs := by
  unfold State.readInput State.inputIs
  rw [Memory.readRun_eq_some_iff]
  constructor
  · rintro ⟨hl, hk⟩
    exact ⟨hl, fun k h => by simpa using hk k (hl ▸ h)⟩
  · rintro ⟨hl, hk⟩
    exact ⟨hl, fun k h => by simpa using hk k (hl ▸ h)⟩

theorem readInput_eq_none_iff (s : State) (n : Nat) :
    s.readInput n = none ↔ ∃ k < n, s.ibuf.readByte k = none := by
  have h := Memory.readRun_isSome_iff s.ibuf 0 n
  unfold State.readInput
  constructor
  · intro hn
    refine Classical.byContradiction fun hne => ?_
    obtain ⟨bs, hb⟩ := h.mpr fun k hk => by
      rw [Nat.zero_add]
      cases hr : s.ibuf.readByte k with
      | none => exact absurd ⟨k, hk, hr⟩ hne
      | some b => rfl
    rw [hn] at hb; cases hb
  · rintro ⟨k, hk, hn⟩
    cases hr : s.ibuf.readRun 0 n with
    | none => rfl
    | some bs =>
      have := h.mp ⟨bs, hr⟩ k hk
      rw [Nat.zero_add, hn] at this; cases this

/-! ### The four operation shells -/

/-- All an encode can do (R123): it stops on undefined input, fails with `RANGE`, or succeeds. -/
theorem encOp_cases (a : Alphabet) (p : Bool) (s : State) :
    ((s.cfg.inCap < s.inCount ∨ s.cfg.outCap < encodedLength s.inCount p) ∧
      encOp a p s = .next (s.complete (.fail .range 0))) ∨
    (s.inCount ≤ s.cfg.inCap ∧ encodedLength s.inCount p ≤ s.cfg.outCap ∧
      ((s.readInput s.inCount = none ∧ encOp a p s = .fault .undefinedInput) ∨
        ∃ bs, s.readInput s.inCount = some bs ∧
          encOp a p s =
            .next (s.complete (.ok (encodedLength s.inCount p) (encodeSeq a p bs))))) := by
  unfold encOp
  by_cases h1 : s.cfg.inCap < s.inCount
  · exact .inl ⟨.inl h1, by rw [if_pos h1]⟩
  · by_cases h2 : s.cfg.outCap < encodedLength s.inCount p
    · exact .inl ⟨.inr h2, by rw [if_neg h1, if_pos h2]⟩
    · refine .inr ⟨by omega, by omega, ?_⟩
      rw [if_neg h1, if_neg h2]
      cases hr : s.readInput s.inCount with
      | none => exact .inl ⟨rfl, rfl⟩
      | some bs => exact .inr ⟨bs, rfl, rfl⟩

/-- All a decode can do (R149): `RANGE`, then `MALFORMED_INPUT`, then a stop on undefined input, then what
the sequence decodes to. -/
theorem decOp_cases (a : Alphabet) (p : Bool) (s : State) :
    ((s.cfg.inCap < s.inCount ∨ s.cfg.outCap < decodedLength s.inCount p) ∧
      decOp a p s = .next (s.complete (.fail .range 0))) ∨
    (s.inCount ≤ s.cfg.inCap ∧ decodedLength s.inCount p ≤ s.cfg.outCap ∧
      ((badLength p s.inCount = true ∧
          decOp a p s = .next (s.complete (.fail .malformedInput 0))) ∨
        (badLength p s.inCount = false ∧
          ((s.readInput s.inCount = none ∧ decOp a p s = .fault .undefinedInput) ∨
            ∃ ss, s.readInput s.inCount = some ss ∧
              decOp a p s =
                .next (s.complete (decodeOutcome s.inCount p (decodeSeq a p ss))))))) := by
  unfold decOp
  by_cases h1 : s.cfg.inCap < s.inCount
  · exact .inl ⟨.inl h1, by rw [if_pos h1]⟩
  · by_cases h2 : s.cfg.outCap < decodedLength s.inCount p
    · exact .inl ⟨.inr h2, by rw [if_neg h1, if_pos h2]⟩
    · refine .inr ⟨by omega, by omega, ?_⟩
      rw [if_neg h1, if_neg h2]
      cases hb : badLength p s.inCount with
      | true => exact .inl ⟨rfl, rfl⟩
      | false =>
        refine .inr ⟨rfl, ?_⟩
        rw [if_neg (by simp)]
        cases hr : s.readInput s.inCount with
        | none => exact .inl ⟨rfl, rfl⟩
        | some ss => exact .inr ⟨ss, rfl, rfl⟩

/-- All an encoded-length operation can do (R112). -/
theorem encLenOp_cases (p : Bool) (s : State) :
    (2 ^ 32 ≤ encodedLength s.inCount p ∧
      encLenOp p s = .next (s.complete (.fail .range 0))) ∨
    (encodedLength s.inCount p < 2 ^ 32 ∧
      encLenOp p s = .next (s.complete (.ok (encodedLength s.inCount p) []))) := by
  unfold encLenOp
  by_cases h : 2 ^ 32 ≤ encodedLength s.inCount p
  · exact .inl ⟨h, by simp only [if_pos h]⟩
  · exact .inr ⟨by omega, by simp only [if_neg h]⟩

/-! ### What every operation is -/

/-- Each operation is one of the four shells, with its own alphabet and padding mode (R72). -/
theorem exec_eq_shell (i : Instr) (s : State) :
    (∃ a p, (i, a, p) ∈ encForms ∧ exec i s = encOp a p s) ∨
    (∃ a p, (i, a, p) ∈ decForms ∧ exec i s = decOp a p s) ∨
    (∃ p, (i, p) ∈ encLenForms ∧ exec i s = encLenOp p s) ∨
    (∃ p, (i, p) ∈ decLenForms ∧ exec i s = decLenOp p s) := by
  cases i
  · exact .inl ⟨.standard, false, by decide, rfl⟩
  · exact .inr (.inl ⟨.standard, false, by decide, rfl⟩)
  · exact .inr (.inr (.inl ⟨false, by decide, rfl⟩))
  · exact .inr (.inr (.inr ⟨false, by decide, rfl⟩))
  · exact .inl ⟨.urlSafe, false, by decide, rfl⟩
  · exact .inr (.inl ⟨.urlSafe, false, by decide, rfl⟩)
  · exact .inl ⟨.standard, true, by decide, rfl⟩
  · exact .inr (.inl ⟨.standard, true, by decide, rfl⟩)
  · exact .inr (.inr (.inl ⟨true, by decide, rfl⟩))
  · exact .inr (.inr (.inr ⟨true, by decide, rfl⟩))
  · exact .inl ⟨.urlSafe, true, by decide, rfl⟩
  · exact .inr (.inl ⟨.urlSafe, true, by decide, rfl⟩)

/-- The meaning of a form of one family is that family's shell. -/
theorem exec_encForm (f : Instr × Alphabet × Bool) (h : f ∈ encForms) (s : State) :
    exec f.1 s = encOp f.2.1 f.2.2 s := by
  simp only [encForms, List.mem_cons, List.not_mem_nil, or_false] at h
  rcases h with rfl | rfl | rfl | rfl <;> rfl

theorem exec_decForm (f : Instr × Alphabet × Bool) (h : f ∈ decForms) (s : State) :
    exec f.1 s = decOp f.2.1 f.2.2 s := by
  simp only [decForms, List.mem_cons, List.not_mem_nil, or_false] at h
  rcases h with rfl | rfl | rfl | rfl <;> rfl

theorem exec_encLenForm (f : Instr × Bool) (h : f ∈ encLenForms) (s : State) :
    exec f.1 s = encLenOp f.2 s := by
  simp only [encLenForms, List.mem_cons, List.not_mem_nil, or_false] at h
  rcases h with rfl | rfl <;> rfl

theorem exec_decLenForm (f : Instr × Bool) (h : f ∈ decLenForms) (s : State) :
    exec f.1 s = decLenOp f.2 s := by
  simp only [decLenForms, List.mem_cons, List.not_mem_nil, or_false] at h
  rcases h with rfl | rfl <;> rfl

/-- An operation that answers a next state has completed, one way or the other (R41). -/
theorem exec_next_is_completion (i : Instr) (s t : State) (h : exec i s = .next t) :
    ∃ r, t = s.complete r := by
  rcases exec_eq_shell i s with ⟨a, p, -, he⟩ | ⟨a, p, -, he⟩ | ⟨p, -, he⟩ | ⟨p, -, he⟩ <;>
    rw [he] at h
  · rcases encOp_cases a p s with ⟨-, hx⟩ | ⟨-, -, ⟨-, hx⟩ | ⟨bs, -, hx⟩⟩ <;> rw [hx] at h <;>
      cases h <;> exact ⟨_, rfl⟩
  · rcases decOp_cases a p s with ⟨-, hx⟩ | ⟨-, -, ⟨-, hx⟩ | ⟨-, ⟨-, hx⟩ | ⟨ss, -, hx⟩⟩⟩ <;>
      rw [hx] at h <;> cases h <;> exact ⟨_, rfl⟩
  · rcases encLenOp_cases p s with ⟨-, hx⟩ | ⟨-, hx⟩ <;> rw [hx] at h <;> cases h <;>
      exact ⟨_, rfl⟩
  · cases h; exact ⟨_, rfl⟩

/-! ### The engine and the port -/

/-- All an enabled engine step can do (R75, R76). -/
theorem engineStep_cases (s : State) :
    (∃ i, decodeByte s.cmd = .instr i ∧ engineStep s = exec i s) ∨
    (∃ why, decodeByte s.cmd = .rejected why ∧ engineStep s = .next s.completeIllegal) := by
  unfold engineStep
  cases h : decodeByte s.cmd with
  | instr i => exact .inl ⟨i, rfl, rfl⟩
  | rejected why => exact .inr ⟨why, rfl, rfl⟩

/-- Where the register map of R22 puts the buffers, and the indices it leaves unmapped (R38). -/
theorem locationOf_ibuf (cfg : Config) (a : Addr) (i : Nat) (hi : i < cfg.inCap)
    (ha : a.toNat = 0x1000 + i) : locationOf cfg a = .ibuf i := by
  have h : 0x1000 ≤ a.toNat ∧ a.toNat < 0x1000 + cfg.inCap := by omega
  unfold locationOf
  dsimp only
  rw [if_neg (by omega), if_neg (by omega), if_neg (by omega), if_neg (by omega), if_pos h, ha,
    Nat.add_sub_cancel_left]

theorem locationOf_obuf (cfg : Config) (a : Addr) (i : Nat) (hi : i < cfg.outCap)
    (ha : a.toNat = 0x2000 + i) : locationOf cfg a = .obuf i := by
  have hc := cfg.inCap_max
  have h : 0x2000 ≤ a.toNat ∧ a.toNat < 0x2000 + cfg.outCap := by omega
  unfold locationOf
  dsimp only
  rw [if_neg (by omega), if_neg (by omega), if_neg (by omega), if_neg (by omega),
    if_neg (by omega), if_pos h, ha, Nat.add_sub_cancel_left]

theorem locationOf_unmapped (cfg : Config) (a : Addr) (h4 : 4 ≤ a.toNat)
    (hi : ¬(0x1000 ≤ a.toNat ∧ a.toNat < 0x1000 + cfg.inCap))
    (ho : ¬(0x2000 ≤ a.toNat ∧ a.toNat < 0x2000 + cfg.outCap)) :
    locationOf cfg a = .unmapped := by
  unfold locationOf
  dsimp only
  rw [if_neg (by omega), if_neg (by omega), if_neg (by omega), if_neg (by omega), if_neg hi,
    if_neg ho]

/-- No operation is refused, and the one stop of an engine step is undefined input (R30). -/
theorem engineStep_answers (s : State) :
    (∃ t, engineStep s = .next t) ∨ engineStep s = .fault .undefinedInput := by
  rcases engineStep_cases s with ⟨i, -, he⟩ | ⟨why, -, he⟩ <;> rw [he]
  · rcases exec_eq_shell i s with ⟨a, p, -, hx⟩ | ⟨a, p, -, hx⟩ | ⟨p, -, hx⟩ | ⟨p, -, hx⟩ <;> rw [hx]
    · rcases encOp_cases a p s with ⟨-, h⟩ | ⟨-, -, ⟨-, h⟩ | ⟨_, -, h⟩⟩
      · exact .inl ⟨_, h⟩
      · exact .inr h
      · exact .inl ⟨_, h⟩
    · rcases decOp_cases a p s with ⟨-, h⟩ | ⟨-, -, ⟨-, h⟩ | ⟨-, ⟨-, h⟩ | ⟨_, -, h⟩⟩⟩
      · exact .inl ⟨_, h⟩
      · exact .inl ⟨_, h⟩
      · exact .inr h
      · exact .inl ⟨_, h⟩
    · rcases encLenOp_cases p s with ⟨-, h⟩ | ⟨-, h⟩ <;> exact .inl ⟨_, h⟩
    · exact .inl ⟨_, rfl⟩
  · exact .inl ⟨_, rfl⟩

/-- All a start can do (R40, R30): it starts the operation where the engine's step will complete it, and
stops where that step would. -/
theorem startOperation_cases (c : Byte) (s : State) :
    ((∃ t, engineStep (s.start c) = .next t) ∧ startOperation c s = .next (s.start c)) ∨
    (engineStep (s.start c) = .fault .undefinedInput ∧
      startOperation c s = .fault .undefinedInput) := by
  unfold startOperation
  rcases engineStep_answers (s.start c) with ⟨t, h⟩ | h
  · exact .inl ⟨⟨t, h⟩, by rw [h]⟩
  · exact .inr ⟨h, by rw [h]⟩

/-- A write while busy changes nothing (R36, R204). -/
theorem hostWrite_busy (a : Addr) (v : Data) (s : State) (h : s.status.busy = true) :
    hostWrite a v s = .next s := by
  unfold hostWrite
  rw [if_pos h]

/-- All a host write can do (R36). -/
theorem hostWrite_cases (a : Addr) (v : Data) (s : State) :
    hostWrite a v s = .next s ∨
    (s.status.busy = false ∧
      ((a.toNat = 0x0000 ∧ hostWrite a v s = startOperation (v.extractLsb' 0 8) s) ∨
        (a.toNat = 0x0001 ∧ hostWrite a v s = .next { s with inLen := v }) ∨
        ∃ i < s.cfg.inCap, a.toNat = 0x1000 + i ∧
          hostWrite a v s =
            .next { s with ibuf := s.ibuf.writeByte i (v.extractLsb' 0 8) })) := by
  unfold hostWrite locationOf
  cases hb : s.status.busy with
  | true => exact .inl (by simp)
  | false =>
    by_cases h0 : a.toNat = 0x0000
    · exact .inr ⟨rfl, .inl ⟨h0, by simp [h0]⟩⟩
    by_cases h1 : a.toNat = 0x0001
    · exact .inr ⟨rfl, .inr (.inl ⟨h1, by simp [h1]⟩)⟩
    by_cases h2 : a.toNat = 0x0002
    · exact .inl (by simp [h2])
    by_cases h3 : a.toNat = 0x0003
    · exact .inl (by simp [h3])
    by_cases hi : 0x1000 ≤ a.toNat ∧ a.toNat < 0x1000 + s.cfg.inCap
    · exact .inr ⟨rfl, .inr (.inr ⟨a.toNat - 0x1000, by omega, by omega, by
        simp only [if_neg h0, if_neg h1, if_neg h2, if_neg h3, if_pos hi, Bool.false_eq_true,
          if_false]⟩)⟩
    · refine .inl ?_
      simp only [if_neg h0, if_neg h1, if_neg h2, if_neg h3, if_neg hi, Bool.false_eq_true,
        if_false]
      split
      · rename_i h; split at h <;> cases h
      · rename_i h; split at h <;> cases h
      · rename_i h; split at h <;> cases h
      all_goals rfl

/-- A step is the transition of the first scheduled event or, with none left, of the engine. -/
theorem step_eq (s : State) :
    ∃ e rest, step s = transition e (beginCycle s rest) ∧
      (s.schedule = e :: rest ∨ (s.schedule = [] ∧ e = .engine ∧ rest = [])) := by
  unfold step
  cases h : s.schedule with
  | nil => exact ⟨.engine, [], rfl, .inr ⟨rfl, rfl, rfl⟩⟩
  | cons e rest => exact ⟨e, rest, rfl, .inl rfl⟩

end Sys2Proof.Machine
end

