-- ==== Sys2Proof/Laws/PerInstr.lean ====
section
/-! SUPPORT. The family `CommandFields`: what R70 asks of the fields of every operation's command byte, one
lemma per constructor. -/

namespace Sys2Proof.Laws.CommandFields

/-- The command byte carries exactly the operation's fields, `RSV` is 0000, and the fields are
well formed (R70, R73). -/
def Statement (i : Instr) : Prop :=
  splitCommand (encodeByte i) = commandOf i ∧ (encodeByte i).extractLsb' 4 4 = 0 ∧
  (commandOf i).wf = true

theorem encStdNopad : Statement .encStdNopad := ⟨by decide, by decide, by decide⟩
theorem decStdNopad : Statement .decStdNopad := ⟨by decide, by decide, by decide⟩
theorem encLenNopad : Statement .encLenNopad := ⟨by decide, by decide, by decide⟩
theorem decLenNopad : Statement .decLenNopad := ⟨by decide, by decide, by decide⟩
theorem encUrlNopad : Statement .encUrlNopad := ⟨by decide, by decide, by decide⟩
theorem decUrlNopad : Statement .decUrlNopad := ⟨by decide, by decide, by decide⟩
theorem encStdPad : Statement .encStdPad := ⟨by decide, by decide, by decide⟩
theorem decStdPad : Statement .decStdPad := ⟨by decide, by decide, by decide⟩
theorem encLenPad : Statement .encLenPad := ⟨by decide, by decide, by decide⟩
theorem decLenPad : Statement .decLenPad := ⟨by decide, by decide, by decide⟩
theorem encUrlPad : Statement .encUrlPad := ⟨by decide, by decide, by decide⟩
theorem decUrlPad : Statement .decUrlPad := ⟨by decide, by decide, by decide⟩

end Sys2Proof.Laws.CommandFields
end

