-- ==== Sys2Proof/Laws/Run.lean ====
section
/-! SUPPORT. Runs of several steps, one step and one stretch at a time. -/

namespace Sys2Proof.Machine

/-- A run's first step. -/
theorem runSteps_succ (n : Nat) (s t : State) (h : step s = .next t) :
    runSteps (n + 1) s = runSteps n t := by
  simp only [runSteps, h]

/-- A run is a run of its first part and, from there, of its second. -/
theorem runSteps_add (m n : Nat) (s t : State) (h : runSteps m s = .next t) :
    runSteps (m + n) s = runSteps n t := by
  induction m generalizing s with
  | zero => cases h; rw [Nat.zero_add]
  | succ m ih =>
    rw [Nat.add_right_comm]
    simp only [runSteps] at h ⊢
    split at h
    · exact ih _ h
    · cases h
    · cases h

/-- The step of a state with a scheduled event is that event's transition. -/
theorem step_of_schedule (s : State) (e : PortEvent) (rest : List PortEvent)
    (h : s.schedule = e :: rest) : step s = transition e (beginCycle s rest) := by
  simp only [step, h]

end Sys2Proof.Machine
end

