-- ==== Sys2Proof/Tests/Slice0.lean ====
section
/-! SUPPORT. The model's own tests. Expected values come from 95_test_vectors.md (its vector ids stand in the
names) and from the rules' examples and tables. The `witness_` theorems show states and operands that meet
the hypotheses of the obligations of the same names. -/

namespace Sys2Proof.Tests

open Sys2Proof Sys2Proof.Machine

/-- Busy with an input of `n` elements, the given bytes in `IBUF`, `OBUF` undefined. -/
def busyWith (cfg : Config) (n : Nat) (input : List Byte) : State :=
  { State.resetOf cfg with
    inLen := BitVec.ofNat 32 n
    status := Status.running
    ibuf := Memory.writeRun [] 0 input }

def sixteen : Config := { inCap := 16, outCap := 16 }

/-- `STATUS`, `OUT_LEN` and the defined bytes of `OBUF` after an operation. -/
def after (i : Instr) (s : State) : Option (Data × Data × List Byte) :=
  (nextOf (exec i s)).map fun t => (t.status.word, t.outLen, t.obuf.map Prod.snd)

/-- An operation on an input that it covers exactly, at capacities of 16. -/
def run (i : Instr) (input : List Byte) : Option (Data × Data × List Byte) :=
  after i (busyWith sixteen input.length input)

/-! ### Encodings, bit by bit from R72 -/

theorem test_word_encStdNopad : decodeTableWord 8 0b00000000 = some .encStdNopad := by decide

theorem test_word_decStdNopad : decodeTableWord 8 0b00000001 = some .decStdNopad := by decide

theorem test_word_encLenNopad : decodeTableWord 8 0b00000010 = some .encLenNopad := by decide

theorem test_word_decLenNopad : decodeTableWord 8 0b00000011 = some .decLenNopad := by decide

theorem test_word_encUrlNopad : decodeTableWord 8 0b00000100 = some .encUrlNopad := by decide

theorem test_word_decUrlNopad : decodeTableWord 8 0b00000101 = some .decUrlNopad := by decide

theorem test_word_encStdPad : decodeTableWord 8 0b00001000 = some .encStdPad := by decide

theorem test_word_decStdPad : decodeTableWord 8 0b00001001 = some .decStdPad := by decide

theorem test_word_encLenPad : decodeTableWord 8 0b00001010 = some .encLenPad := by decide

theorem test_word_decLenPad : decodeTableWord 8 0b00001011 = some .decLenPad := by decide

theorem test_word_encUrlPad : decodeTableWord 8 0b00001100 = some .encUrlPad := by decide

theorem test_word_decUrlPad : decodeTableWord 8 0b00001101 = some .decUrlPad := by decide


/-- The bytes next to the legal ones are rejected by name (R74). -/
theorem test_reserved_bytes :
    decodeByte 0x06 = .rejected .urlOnLength ∧ decodeByte 0x07 = .rejected .urlOnLength ∧
    decodeByte 0x0E = .rejected .urlOnLength ∧ decodeByte 0x0F = .rejected .urlOnLength ∧
    decodeByte 0x10 = .rejected .reservedBits ∧ decodeByte 0x18 = .rejected .reservedBits ∧
    decodeByte 0x80 = .rejected .reservedBits ∧ decodeByte 0xFF = .rejected .reservedBits := by decide

theorem test_no_byte : decodeBytes [] = (.rejected .noByte, []) := rfl

/-- R70: `RSV` must be 0000. -/
theorem test_wf_refuses_reserved_bits :
    Command.wf { rsv := 0b0001, pad := false, url := false, op := .enc } = false := by decide

/-- R70: `URL` must be 0 for the two length operations. -/
theorem test_wf_refuses_url_on_length :
    Command.wf { rsv := 0, pad := false, url := true, op := .encLen } = false ∧
    Command.wf { rsv := 0, pad := true, url := true, op := .decLen } = false := by decide

/-- The mnemonics are those of R72, and the aliases expand as R80 says, with its command bytes. -/
theorem test_names :
    Instr.mnemonic .encStdNopad = "ENC.STD.NOPAD" ∧ Instr.mnemonic .decUrlPad = "DEC.URL.PAD" ∧
    Instr.mnemonic .encLenPad = "ENCLEN.PAD" ∧
    encodeByte Pseudo.encode.expand = 0x08 ∧ encodeByte Pseudo.encodeUrl.expand = 0x04 ∧
    encodeByte Pseudo.decode.expand = 0x09 ∧ encodeByte Pseudo.decodeUrl.expand = 0x05 := by decide

/-! ### Tables -/

/-- The dump of R95, row by row, `DEC_STD` (vector T31). -/
def dumpStd : List Entry :=
  [0xFF, 0xFF, 0xFF, 0xFF, 0xFF, 0xFF, 0xFF, 0xFF, 0xFF, 0xFF, 0xFF, 0xFF, 0xFF, 0xFF, 0xFF, 0xFF] ++
  [0xFF, 0xFF, 0xFF, 0xFF, 0xFF, 0xFF, 0xFF, 0xFF, 0xFF, 0xFF, 0xFF, 0xFF, 0xFF, 0xFF, 0xFF, 0xFF] ++
  [0xFF, 0xFF, 0xFF, 0xFF, 0xFF, 0xFF, 0xFF, 0xFF, 0xFF, 0xFF, 0xFF, 0x3E, 0xFF, 0xFF, 0xFF, 0x3F] ++
  [0x34, 0x35, 0x36, 0x37, 0x38, 0x39, 0x3A, 0x3B, 0x3C, 0x3D, 0xFF, 0xFF, 0xFF, 0xFE, 0xFF, 0xFF] ++
  [0xFF, 0x00, 0x01, 0x02, 0x03, 0x04, 0x05, 0x06, 0x07, 0x08, 0x09, 0x0A, 0x0B, 0x0C, 0x0D, 0x0E] ++
  [0x0F, 0x10, 0x11, 0x12, 0x13, 0x14, 0x15, 0x16, 0x17, 0x18, 0x19, 0xFF, 0xFF, 0xFF, 0xFF, 0xFF] ++
  [0xFF, 0x1A, 0x1B, 0x1C, 0x1D, 0x1E, 0x1F, 0x20, 0x21, 0x22, 0x23, 0x24, 0x25, 0x26, 0x27, 0x28] ++
  [0x29, 0x2A, 0x2B, 0x2C, 0x2D, 0x2E, 0x2F, 0x30, 0x31, 0x32, 0x33, 0xFF, 0xFF, 0xFF, 0xFF, 0xFF] ++
  List.replicate 128 0xFF

/-- The dump of R95, row by row, `DEC_URL` (vector T31). -/
def dumpUrl : List Entry :=
  [0xFF, 0xFF, 0xFF, 0xFF, 0xFF, 0xFF, 0xFF, 0xFF, 0xFF, 0xFF, 0xFF, 0xFF, 0xFF, 0xFF, 0xFF, 0xFF] ++
  [0xFF, 0xFF, 0xFF, 0xFF, 0xFF, 0xFF, 0xFF, 0xFF, 0xFF, 0xFF, 0xFF, 0xFF, 0xFF, 0xFF, 0xFF, 0xFF] ++
  [0xFF, 0xFF, 0xFF, 0xFF, 0xFF, 0xFF, 0xFF, 0xFF, 0xFF, 0xFF, 0xFF, 0xFF, 0xFF, 0x3E, 0xFF, 0xFF] ++
  [0x34, 0x35, 0x36, 0x37, 0x38, 0x39, 0x3A, 0x3B, 0x3C, 0x3D, 0xFF, 0xFF, 0xFF, 0xFE, 0xFF, 0xFF] ++
  [0xFF, 0x00, 0x01, 0x02, 0x03, 0x04, 0x05, 0x06, 0x07, 0x08, 0x09, 0x0A, 0x0B, 0x0C, 0x0D, 0x0E] ++
  [0x0F, 0x10, 0x11, 0x12, 0x13, 0x14, 0x15, 0x16, 0x17, 0x18, 0x19, 0xFF, 0xFF, 0xFF, 0xFF, 0x3F] ++
  [0xFF, 0x1A, 0x1B, 0x1C, 0x1D, 0x1E, 0x1F, 0x20, 0x21, 0x22, 0x23, 0x24, 0x25, 0x26, 0x27, 0x28] ++
  [0x29, 0x2A, 0x2B, 0x2C, 0x2D, 0x2E, 0x2F, 0x30, 0x31, 0x32, 0x33, 0xFF, 0xFF, 0xFF, 0xFF, 0xFF] ++
  List.replicate 128 0xFF

set_option maxRecDepth 4000 in
theorem test_T31_decode_tables :
    buildDecodeTable encStd = dumpStd ∧ buildDecodeTable encUrl = dumpUrl := by decide

/-- Vectors T1 to T10. -/
theorem test_T1_T10_encode_tables :
    [0, 25, 26, 51, 52, 61, 62, 63].map (encSymbol .standard) =
      [0x41, 0x5A, 0x61, 0x7A, 0x30, 0x39, 0x2B, 0x2F] ∧
    [62, 63].map (encSymbol .urlSafe) = [0x2D, 0x5F] := by decide

/-! ### Operations: at most two vectors each -/

theorem test_S6_encStdPad :
    run .encStdPad [0x71, 0x77, 0x65, 0x72, 0x74, 0x79, 0x75, 0x69, 0x6F, 0x70] =
      some (0x06, 16, [0x63, 0x58, 0x64, 0x6C, 0x63, 0x6E, 0x52, 0x35, 0x64, 0x57, 0x6C, 0x76, 0x63, 0x41, 0x3D, 0x3D]) := by decide

theorem test_E14_encStdNopad :
    run .encStdNopad [0xFB, 0xEF, 0xFF, 0xFA] =
      some (0x06, 6, [0x2B, 0x2B, 0x2F, 0x2F, 0x2B, 0x67]) := by decide

theorem test_E12_encUrlPad :
    run .encUrlPad [0xFB, 0xFF] =
      some (0x06, 4, [0x2D, 0x5F, 0x38, 0x3D]) := by decide

theorem test_E14_encUrlNopad :
    run .encUrlNopad [0xFB, 0xEF, 0xFF, 0xFA] =
      some (0x06, 6, [0x2D, 0x2D, 0x5F, 0x5F, 0x2D, 0x67]) := by decide

/-- Vectors ER2 and ER4: an output one group too long. `OBUF` stays as it was. -/
theorem test_ER2_ER4_range :
    after .encStdPad (busyWith sixteen 13 []) = some (0x52, 0, []) ∧
    after .encStdNopad (busyWith sixteen 13 []) = some (0x52, 0, []) := by decide

/-- Vector ER6: an input one byte too long for `IBUF`; vector ER10: no wrap-around. -/
theorem test_ER6_ER10_range :
    after .encUrlPad (busyWith { inCap := 16, outCap := 32 } 17 []) = some (0x52, 0, []) ∧
    after .encUrlNopad (busyWith Config.reference 4294967295 []) = some (0x52, 0, []) := by decide

theorem test_D19_D37_decStdPad :
    run .decStdPad [0x59, 0x57, 0x4A, 0x3D] = some (0x06, 2, [0x61, 0x62]) ∧
    run .decStdPad [0x59, 0x57, 0x4A, 0x6A, 0x59, 0x3D, 0x51, 0x67] = some (0x32, 0, []) := by decide

theorem test_D10_decStdNopad : run .decStdNopad [0x5A, 0x6D, 0x39, 0x76, 0x59, 0x6D, 0x45] = some (0x06, 5, [0x66, 0x6F, 0x6F, 0x62, 0x61]) := by decide

theorem test_D25_decStdNopad : run .decStdNopad [0x59, 0x51, 0x3D] = some (0x32, 0, []) := by decide

theorem test_D43_decUrlPad : run .decUrlPad [0x2D, 0x77, 0x3D, 0x3D] = some (0x06, 1, [0xFB]) := by decide

theorem test_S9_decUrlPad : run .decUrlPad [0x59, 0x21, 0x51, 0x3D] = some (0x22, 0, []) := by decide

theorem test_D46_decUrlNopad : run .decUrlNopad [0x2D, 0x5F, 0x38] = some (0x06, 2, [0xFB, 0xFF]) := by decide

theorem test_D23_decUrlNopad : run .decUrlNopad [0x59] = some (0x12, 0, []) := by decide

/-- Vectors DR1, DR2 (the bound, not the exact count, is held against `OUT_CAP`) and DR5 (`RANGE` before
the bad length). -/
theorem test_DR1_DR2_DR5 :
    after .decStdPad (busyWith { inCap := 16, outCap := 2 } 4 [0x59, 0x51, 0x3D, 0x3D]) =
      some (0x52, 0, []) ∧
    after .decStdPad (busyWith { inCap := 16, outCap := 3 } 4 [0x59, 0x51, 0x3D, 0x3D]) =
      some (0x06, 1, [0x61]) ∧
    after .decStdPad (busyWith { inCap := 16, outCap := 64 } 17 []) = some (0x52, 0, []) := by decide

/-- Vectors L23, L25, L27 and L29. -/
theorem test_L_encLenNopad :
    [3221225469, 3221225470, 3221225471, 3221225472].map
        (fun n => after .encLenNopad (busyWith sixteen n [])) =
      [some (0x06, 4294967292, []), some (0x06, 4294967294, []), some (0x06, 4294967295, []),
        some (0x52, 0, [])] := by decide

/-- Vectors L2, L18, L24 and L26. -/
theorem test_L_encLenPad :
    [0, 10, 3221225469, 3221225470].map (fun n => after .encLenPad (busyWith sixteen n [])) =
      [some (0x06, 0, []), some (0x06, 16, []), some (0x06, 4294967292, []),
        some (0x52, 0, [])] := by decide

/-- Vectors L35, L51 and L57. -/
theorem test_L_decLenNopad :
    [1, 14, 4294967295].map (fun n => after .decLenNopad (busyWith sixteen n [])) =
      [some (0x06, 1, []), some (0x06, 11, []), some (0x06, 3221225472, [])] := by decide

/-- Vectors L40, L52 and L58. -/
theorem test_L_decLenPad :
    [3, 14, 4294967295].map (fun n => after .decLenPad (busyWith sixteen n [])) =
      [some (0x06, 0, []), some (0x06, 9, []), some (0x06, 3221225469, [])] := by decide

/-! ### Failures and undefined entries -/

/-- R30: an encode and a decode stop on an entry that was never written. -/
theorem test_undefined_input_stops :
    exec .encStdPad (busyWith sixteen 3 [0x61, 0x62]) = .fault .undefinedInput ∧
    exec .decStdPad (busyWith sixteen 4 [0x59, 0x51, 0x3D]) = .fault .undefinedInput :=
  ⟨rfl, rfl⟩

/-- Not busy, with an input of `n` elements and the given bytes in `IBUF`. -/
def idleWith (cfg : Config) (n : Nat) (input : List Byte) : State :=
  { busyWith cfg n input with status := Status.idle }

/-- V2 of 93_implementation_defined.md: on such an input the run ends at the `CMD` write. -/
theorem test_V2_stop_at_the_command_write :
    hostWrite 0x0000 0x08 (idleWith sixteen 3 [0x61, 0x62]) = .fault .undefinedInput ∧
    hostWrite 0x0000 0x09 (idleWith sixteen 4 [0x59, 0x51, 0x3D]) = .fault .undefinedInput :=
  ⟨rfl, rfl⟩

/-- Program P4: with `IBUF` wholly undefined an `ENCLEN`, a reserved byte and an encode past `IN_CAP` all
start and complete. -/
theorem test_P4_completions_without_input :
    ([(10, 0x0A), (10, 0x06), (5000, 0x08)] : List (Nat × Data)).map
        (fun c => (nextOf (runSteps 2
          { idleWith Config.reference c.1 [] with schedule := [.write 0x0000 c.2, .engine] })).map
            fun t => t.status.word) =
      [some 0x06, some 0x42, some 0x52] := by decide

/-- R177 (b): after a failed decode of 4 symbols three entries are undefined, the fourth is not. -/
theorem test_failed_decode_spoils_below_the_bound :
    (nextOf (exec .decStdPad
      { busyWith sixteen 4 [0x59, 0x3D, 0x51, 0x67] with
        obuf := [(0, 0x10), (2, 0x12), (3, 0x13)] })).map State.obuf = some [(3, 0x13)] := by decide

/-- Vectors I1 and I8: a reserved byte is kept in `CMD` and completes with `ILLEGAL_CMD`. -/
theorem test_I1_I8_illegal :
    ([0x06, 0xFF] : List Data).map (fun v =>
        (nextOf (runSteps 2 { State.reset with schedule := [.write 0x0000 v, .engine] })).map
          fun t => (t.cmd, t.status.word)) =
      [some (0x06, 0x42), some (0xFF, 0x42)] := by decide

/-- Vector I9: bits 31:8 of the data written to `CMD` are ignored. -/
theorem test_I9_high_bits_ignored :
    (nextOf (hostWrite 0x0000 0x00000108 State.reset)).map State.cmd = some 0x08 := by decide

/-! ### Port, start and steps -/

/-- Vectors H1, H2 and H7 (reads). -/
theorem test_H1_H2_H7_reads :
    ([0x0000, 0x0001, 0x0002, 0x0003, 0x0004, 0x3FFF] : List Addr).map
        (fun a => (hostRead a { State.reset with hRdata := 7 }).hRdata) =
      [0, 0, 0, 0, 0, 0] := by decide

/-- Vector H4: `IBUF[5]` takes bits 7:0. -/
theorem test_H4_ibuf_write :
    (nextOf (hostWrite 0x1005 0x12345678 State.reset)).map State.ibuf = some [(5, 0x78)] := by decide

/-- Vectors H6 and H7: writes that are dropped. -/
theorem test_H6_H7_dropped_writes :
    ([0x0002, 0x0003, 0x0004, 0x2000, 0x3000] : List Addr).map
        (fun a => decide (nextOf (hostWrite a 7 State.reset) = some State.reset)) =
      [true, true, true, true, true] := by decide

/-- Vector H8. -/
theorem test_H8_start :
    (nextOf (hostWrite 0x0000 0x0B
        { State.reset with status := Status.succeeded, outLen := 16 })).map
        (fun t => (t.cmd, t.status.word, t.outLen)) = some (0x0B, 0x01, 0) := by decide

/-- Vectors H9 and H10: writes while busy are dropped. -/
theorem test_H9_H10_busy_writes :
    ([0x0000, 0x0001, 0x1000] : List Addr).map
        (fun a => decide (nextOf (hostWrite a 5 (busyWith sixteen 1 [])) =
          some (busyWith sixteen 1 []))) =
      [true, true, true] := by decide

/-- Vector H14. -/
theorem test_H14_engine :
    (nextOf (step { busyWith sixteen 16 [] with cmd := 0x0B })).map
        (fun t => (t.status.word, t.outLen)) = some (0x06, 12) := by decide

/-- Vector H15: reading `STATUS` clears nothing. -/
theorem test_H15_status_read :
    (fun t : State => (t.hRdata, t.status))
        (hostRead 0x0003 { State.reset with status := Status.failed .misplacedPadding }) =
      (0x32, Status.failed .misplacedPadding) := by decide

/-- Vector H17: reset, here of a busy block. -/
theorem test_H17_reset :
    nextOf (transition .reset (busyWith Config.reference 1 [0x61])) = some State.reset := by decide

/-- A placed command is the one the very next step runs. -/
theorem test_fetched_word_runs :
    (nextOf (step ({ State.reset with inLen := 10 }.withFetchWord 8 0x0A))).map
        (fun t => (t.cmd, t.status.word, t.outLen)) = some (0x0A, 0x06, 16) := by decide

/-- Nothing pending and nothing scheduled: the cycle is idle. -/
theorem test_idle_step : nextOf (step State.reset) = some State.reset := by decide

/-- The accesses of program P3, but for the engine's completions (R81). -/
theorem test_P3_accesses :
    (scriptEvents
        [.load [0x59, 0x3D, 0x51, 0x67], .run .decStdPad, .wait 0, .rd 0x0003, .expect 0x32,
          .rd 0x0002, .expect 0, .wr 0x1001 0x57, .run .decStdPad, .wait 0, .rd 0x0003,
          .expect 0x06, .rd 0x0002, .expect 3, .out 3]).filter (· ≠ .engine) =
      [.write 0x1000 0x59, .write 0x1001 0x3D, .write 0x1002 0x51, .write 0x1003 0x67,
        .write 0x0001 4, .write 0x0000 9, .read 0x0003, .read 0x0003, .read 0x0002,
        .write 0x1001 0x57, .write 0x0000 9, .read 0x0003, .read 0x0003, .read 0x0002,
        .read 0x2000, .read 0x2001, .read 0x2002] := by decide

/-- The `mov` of program P2. -/
theorem test_P2_mov :
    (Stmt.mov [0x2D, 0x5F]).events =
      [.read 0x2000, .write 0x1000 0x2D, .read 0x2001, .write 0x1001 0x5F, .write 0x0001 2] := by
  decide

/-! ### Witnesses: every obligation's hypotheses can be met, clause by clause -/

theorem witness_EncodedLengthFormula : 0 % 3 = 0 ∧ 1 % 3 = 1 ∧ 2 % 3 = 2 := by decide

theorem witness_DecodeTableInvertsEncodeTable :
    (0x21 : Byte) ≠ padSym ∧ ∀ k : Sextet, encSymbol .standard k ≠ 0x21 := by decide

theorem witness_SymbolsOutsideAnAlphabet :
    (0x80 : Byte) ≤ 0x80 ∧ decodeSeq .urlSafe false [0x59, 0x51] = .bytes [0x61] := by decide

theorem witness_EncLenNeverTruncates :
    (nextOf (exec .encLenPad (busyWith sixteen 3221225469 []))).isSome = true ∧
    (nextOf (exec .encLenPad (busyWith sixteen 3221225470 []))).isSome = true ∧
    (Instr.encLenPad, true) ∈ encLenForms := by decide

theorem witness_EncodeFullGroupSymbols :
    ([1, 2, 3, 4, 5, 6] : List Byte)[3 * 1]? = some 4 ∧
    ([1, 2, 3, 4, 5, 6] : List Byte)[3 * 1 + 1]? = some 5 ∧
    ([1, 2, 3, 4, 5, 6] : List Byte)[3 * 1 + 2]? = some 6 := by decide

theorem witness_EncodeRemainderAndPadding :
    ([] : List Byte).length = 3 * 0 ∧
    (([7, 7, 7, 1] : List Byte).length = 3 * 1 + 1 ∧ ([7, 7, 7, 1] : List Byte)[3 * 1]? = some 1) ∧
    ([1, 2] : List Byte).length = 3 * 0 + 2 ∧ ([1, 2] : List Byte)[3 * 0]? = some 1 ∧
    ([1, 2] : List Byte)[3 * 0 + 1]? = some 2 := by decide

theorem witness_EncodeLengthAndAlphabet :
    (encodeSeq .standard true [0x61])[1]? = some 0x51 ∧
    (encodeSeq .standard true [0x61])[2]? = some 0x3D := by decide

/-- An input that fills `IBUF` and an output that fills `OBUF`, for each form. -/
theorem witness_EncodeCompletes :
    ∀ f ∈ encForms, ∃ (s : State) (bytes : List Byte), s.inputIs bytes ∧
      bytes.length = s.cfg.inCap ∧ encodedLength bytes.length f.2.2 ≤ s.cfg.outCap :=
  fun _ hf => ⟨busyWith { inCap := 3, outCap := 4 } 3 [1, 2, 3], [1, 2, 3], ⟨rfl, by decide⟩, rfl, by
    simp only [encForms, List.mem_cons, List.not_mem_nil, or_false] at hf
    rcases hf with rfl | rfl | rfl | rfl <;> decide⟩

theorem witness_DecodeLengthCheckComesFirst :
    ([1] : List Byte).length % 4 ≠ 0 ∧ ([1] : List Byte).length % 4 = 1 ∧
    ([1, 2, 3, 4] : List Byte).length % 4 = 0 ∧ ([1, 2, 3] : List Byte).length % 4 ≠ 1 := by decide

/-- The first of two groups, once of values (the decode succeeds), once with a sentinel. -/
theorem witness_DecodeNonTerminalGroup :
    4 * 0 + 4 < ([0x59, 0x57, 0x4A, 0x6A, 0x59, 0x51, 0x3D, 0x3D] : List Byte).length ∧
    ([0x59, 0x57, 0x4A, 0x6A, 0x59, 0x51, 0x3D, 0x3D] : List Byte)[4 * 0]? = some 0x59 ∧
    ([0x59, 0x57, 0x4A, 0x6A, 0x59, 0x51, 0x3D, 0x3D] : List Byte)[4 * 0 + 3]? = some 0x6A ∧
    decodeSeq .standard true [0x59, 0x57, 0x4A, 0x6A, 0x59, 0x51, 0x3D, 0x3D] =
      .bytes [0x61, 0x62, 0x63, 0x61] ∧
    isSentinel (decEntry .standard 0x3D) = true ∧
    4 * 0 + 4 < ([0x59, 0x51, 0x3D, 0x3D, 0x59, 0x57] : List Byte).length := by decide

theorem witness_UnpaddedDecode :
    ([0x59, 0x3D] : List Byte).length % 4 ≠ 1 ∧
    ([0x59, 0x3D].map (decEntry .standard)).find? isSentinel = some entryPad ∧
    ([0x59, 0x57, 0x49].map (decEntry .standard)).find? isSentinel = none ∧
    ([0x59, 0x57, 0x49] : List Byte).length % 4 ≠ 0 := by decide

theorem witness_PaddedFinalGroupPatterns :
    ([0x59, 0x57, 0x4A, 0x6A] : List Byte).length % 4 = 0 ∧
    (∀ c ∈ ([0x59, 0x57, 0x4A, 0x6A] : List Byte), isSentinel (decEntry .standard c) = false) ∧
    decodeSeq .standard true [0x59, 0x57, 0x4A, 0x6A] = .bytes [0x61, 0x62, 0x63] ∧
    decEntry .standard 0x51 = 16 ∧ decEntry .standard 0x3D = entryPad ∧
    decEntry .standard 0x21 = entryInvalid := by decide

theorem witness_FirstOffendingSymbolDecides :
    badLength true ([0x59, 0x21, 0x51, 0x3D] : List Byte).length = false ∧
    (([0x59, 0x21, 0x51, 0x3D].take (requiredCount true [0x59, 0x21, 0x51, 0x3D])).map
      (decEntry .standard)).find? isSentinel = some entryInvalid ∧
    (([0x59, 0x51, 0x3D, 0x3D].take (requiredCount true [0x59, 0x51, 0x3D, 0x3D])).map
      (decEntry .standard)).find? isSentinel = none := by decide

theorem witness_DecodedCountIsExact :
    decodeSeq .standard true [0x59, 0x51, 0x3D, 0x3D] = .bytes [0x61] ∧
    decodeSeq .standard false [0x59, 0x57, 0x49] = .bytes [0x61, 0x62] := by decide

/-- `Q` and `R` differ in their low four bits, `I` and `J` in their low two (R154's examples). -/
theorem witness_TrailingBitsAreIgnored :
    ([] : List Byte).length % 4 = 0 ∧ isSentinel (decEntry .standard 0x51) = false ∧
    isSentinel (decEntry .standard 0x52) = false ∧
    decEntry .standard 0x51 >>> 4 = decEntry .standard 0x52 >>> 4 ∧
    isSentinel (decEntry .standard 0x49) = false ∧ isSentinel (decEntry .standard 0x4A) = false ∧
    decEntry .standard 0x49 >>> 2 = decEntry .standard 0x4A >>> 2 := by decide

theorem witness_AllPaddingFinalGroupFails :
    ([0x59, 0x57, 0x4A, 0x6A] : List Byte).length % 4 = 0 ∧
    (∀ c ∈ ([0x59, 0x57, 0x4A, 0x6A] : List Byte), isSentinel (decEntry .standard c) = false) ∧
    isSentinel (decEntry .standard 0x59) = false := by decide

/-- The hypotheses of the round trip at capacities that just hold the encoding and the bound. -/
theorem witness_OperationRoundTrip :
    ((Instr.encStdPad, Alphabet.standard, true), (Instr.decStdPad, Alphabet.standard, true)) ∈
      encForms.zip decForms ∧
    (busyWith { inCap := 4, outCap := 4 } 1 [0x61]).inputIs [0x61] ∧
    encodedLength 1 true ≤ min 4 4 ∧ decodedLength (encodedLength 1 true) true ≤ 4 ∧
    (nextOf (exec .encStdPad (busyWith { inCap := 4, outCap := 4 } 1 [0x61]))).map State.outLen =
      some 4 :=
  ⟨by decide, ⟨rfl, by decide⟩, by decide, by decide, by decide⟩

/-- A state for each decode; the padded ones end in padding. -/
theorem witness_DecodeCompletes :
    ∀ f ∈ decForms, ∃ (s : State) (symbols : List Byte), s.inputIs symbols ∧
      symbols.length = s.cfg.inCap ∧ decodedLength symbols.length f.2.2 = s.cfg.outCap ∧
      badLength f.2.2 symbols.length = false ∧
      ∀ c ∈ symbols.take (requiredCount f.2.2 symbols), isSentinel (decEntry f.2.1 c) = false := by
  intro f hf
  simp only [decForms, List.mem_cons, List.not_mem_nil, or_false] at hf
  rcases hf with rfl | rfl | rfl | rfl
  · exact ⟨busyWith { inCap := 2, outCap := 2 } 2 [0x59, 0x51], [0x59, 0x51], ⟨rfl, by decide⟩,
      rfl, rfl, rfl, by decide⟩
  · exact ⟨busyWith { inCap := 2, outCap := 2 } 2 [0x59, 0x51], [0x59, 0x51], ⟨rfl, by decide⟩,
      rfl, rfl, rfl, by decide⟩
  · exact ⟨busyWith { inCap := 4, outCap := 3 } 4 [0x59, 0x51, 0x3D, 0x3D],
      [0x59, 0x51, 0x3D, 0x3D], ⟨rfl, by decide⟩, rfl, rfl, rfl, by decide⟩
  · exact ⟨busyWith { inCap := 4, outCap := 3 } 4 [0x59, 0x51, 0x3D, 0x3D],
      [0x59, 0x51, 0x3D, 0x3D], ⟨rfl, by decide⟩, rfl, rfl, rfl, by decide⟩

theorem witness_MalformedLengthTouchesNoBuffer :
    (busyWith sixteen 15 []).inLen.toNat ≤ sixteen.inCap ∧
    decodedLength (busyWith sixteen 15 []).inLen.toNat true ≤ sixteen.outCap ∧
    (busyWith sixteen 15 []).inLen.toNat % 4 ≠ 0 ∧
    decodedLength (busyWith sixteen 13 []).inLen.toNat false ≤ sixteen.outCap ∧
    (busyWith sixteen 13 []).inLen.toNat % 4 = 1 := by decide

/-- For each decode, one input with each kind of offending symbol. -/
theorem witness_FailedDecodeCompletes :
    (busyWith sixteen 4 [0x59, 0x3D, 0x51, 0x67]).inputIs [0x59, 0x3D, 0x51, 0x67] ∧
    (∀ f ∈ decForms, decodedLength 4 f.2.2 ≤ sixteen.outCap ∧ badLength f.2.2 4 = false ∧
      decodeSeq f.2.1 f.2.2 [0x59, 0x3D, 0x51, 0x67] = .err .misplacedPadding ∧
      decodeSeq f.2.1 f.2.2 [0x59, 0x21, 0x51, 0x3D] = .err .invalidSymbol) :=
  ⟨⟨rfl, by decide⟩, by decide⟩

/-- Both comparisons fail by one, and a length result by one (vectors ER6, ER2, DR1, L26). -/
theorem witness_RangeFailsBeforeAnyAccess :
    sixteen.inCap < (busyWith sixteen 17 []).inLen.toNat ∧
    sixteen.outCap < encodedLength (busyWith sixteen 13 []).inLen.toNat true ∧
    2 < decodedLength 4 true ∧ 2 ^ 32 ≤ encodedLength 3221225470 true ∧
    (nextOf (exec .encStdPad (busyWith sixteen 13 []))).isSome = true ∧
    (nextOf (exec .decLenPad (busyWith sixteen 13 []))).isSome = true := by decide

theorem witness_FaultOnlyOnUndefinedInput :
    exec .decUrlNopad (busyWith sixteen 2 [0x59]) = .fault .undefinedInput :=
  rfl

theorem witness_EveryOperationCompletes : (busyWith sixteen 2 [0x59, 0x51]).inputDefined := by
  unfold State.inputDefined
  decide

theorem witness_OperationFrame :
    (nextOf (exec .encUrlNopad (busyWith sixteen 1 [0x61]))).isSome = true ∧
    (nextOf (exec .decStdPad (busyWith sixteen 0 []))).isSome = true ∧
    (nextOf (exec .decLenNopad (busyWith sixteen 5 []))).isSome = true := by decide

/-- Each case of the frame: past the bound, past the result, and the two early failures. -/
theorem witness_OutputBufferFrame :
    encodedLength (busyWith sixteen 1 [0x61]).inCount true ≤ 4 ∧
    (nextOf (exec .decStdPad (busyWith sixteen 4 [0x59, 0x51, 0x3D, 0x3D]))).map
      (fun t => (t.status.ok, t.outLen.toNat)) = some (true, 1) ∧
    (nextOf (exec .decStdPad (busyWith sixteen 3 []))).map (fun t => t.status.err) =
      some (some .malformedInput) ∧
    (nextOf (exec .decStdPad (busyWith sixteen 17 []))).map (fun t => t.status.err) =
      some (some .range) := by decide

/-- Two states that agree on what the operation looks at and differ in everything else. -/
theorem witness_OutcomeDependsOnInputsAlone :
    (busyWith sixteen 1 [0x61]).cfg = (busyWith sixteen 1 [0x61, 0x62]).cfg ∧
    (busyWith sixteen 1 [0x61]).inLen = (busyWith sixteen 1 [0x61, 0x62]).inLen ∧
    (∀ k < (busyWith sixteen 1 [0x61]).inLen.toNat,
      (busyWith sixteen 1 [0x61]).ibuf.readByte k =
        (busyWith sixteen 1 [0x61, 0x62]).ibuf.readByte k) ∧
    (nextOf (exec .encStdPad (busyWith sixteen 1 [0x61]))).isSome = true := by decide

/-- A command whose last input byte is defined and one whose last is not, neither busy, and a busy
state. -/
theorem witness_CommandWriteStarts :
    (idleWith sixteen 2 [0x61, 0x62]).status.busy = false ∧
    ¬(idleWith sixteen 2 [0x61, 0x62]).readsUndefined ((0x08 : Data).extractLsb' 0 8) ∧
    (idleWith sixteen 2 [0x61]).status.busy = false ∧
    (idleWith sixteen 2 [0x61]).readsUndefined ((0x08 : Data).extractLsb' 0 8) ∧
    (busyWith sixteen 0 []).status.busy = true := by
  unfold State.readsUndefined
  decide

/-- The clauses of the two port statements at the first and last index of each range. -/
theorem witness_HostWriteByAddress :
    ([0x1000, 0x100F, 0x1010, 0x0FFF] : List Addr).map (locationOf sixteen) =
      [.ibuf 0, .ibuf 15, .unmapped, .unmapped] ∧
    ([0x0000, 0x0001, 0x0002, 0x0003] : List Addr).map (locationOf sixteen) =
      [.cmd, .inLen, .outLen, .status] ∧
    (busyWith sixteen 0 []).status.busy = true ∧
    ¬(idleWith sixteen 2 [0x59, 0x51]).readsUndefined ((0x01 : Data).extractLsb' 0 8) ∧
    (idleWith sixteen 2 [0x59]).readsUndefined ((0x01 : Data).extractLsb' 0 8) := by
  unfold State.readsUndefined
  decide

theorem witness_HostReadByAddress :
    ([0x2000, 0x200F, 0x2010, 0x1FFF, 0x0004, 0x3FFF] : List Addr).map (locationOf sixteen) =
      [.obuf 0, .obuf 15, .unmapped, .unmapped, .unmapped, .unmapped] ∧
    ([0x1FFF, 0x2FFF, 0x3000] : List Addr).map (locationOf Config.reference) =
      [.ibuf 4095, .obuf 4095, .unmapped] ∧
    (busyWith sixteen 1 [0x61]).ibuf.readByte 0 = some 0x61 ∧
    (State.reset.complete (.ok 1 [0x61])).status.busy = false ∧
    (State.reset.complete (.ok 1 [0x61])).obuf.readByte 0 = some 0x61 := by decide

theorem witness_HostAccessesNeverFail :
    (0x1005 : Addr).toNat ≠ 0 ∧ (0x1005 : Addr).toNat = 0x1000 + 5 ∧ 5 < sixteen.inCap ∧
    State.reset.status.busy = false ∧
    (nextOf (transition (.write 0x1005 9) (idleWith sixteen 0 []))).isSome = true ∧
    (nextOf (transition (.write 0x0000 8) (idleWith sixteen 1 []))).isSome = false := by decide

theorem witness_StepRunsTheDecodedOperation :
    (busyWith sixteen 0 []).status.busy = true ∧
    decodeByte (busyWith sixteen 0 []).cmd = .instr .encStdNopad ∧
    (busyWith sixteen 0 []).schedule = [] ∧
    { busyWith sixteen 0 [] with schedule := [.engine, .idle] }.schedule = .engine :: [.idle] := by
  decide

theorem witness_FetchedWordRunsNext : decodeTableWord 8 0x0D = some .decUrlPad := by decide

theorem witness_ReservedCommandCompletesIllegal :
    State.reset.status.busy = false ∧
    decodeByte ((0x12345606 : Data).extractLsb' 0 8) = .rejected .urlOnLength ∧
    ¬(State.reset.completeIllegal).readsUndefined ((0x08 : Data).extractLsb' 0 8) := by
  unfold State.readsUndefined
  decide

theorem witness_AccessesWhileBusyAreInert :
    { busyWith sixteen 1 [] with
      schedule := [.write 0x0000 9, .read 0x2000, .idle, .engine] }.status.busy = true ∧
    (∀ e ∈ ([.write 0x0000 9, .read 0x2000, .idle] : List PortEvent), e ≠ .engine ∧ e ≠ .reset) ∧
    { busyWith sixteen 1 [] with
      schedule := [.write 0x0000 9, .read 0x2000, .idle, .engine] }.schedule =
      [.write 0x0000 9, .read 0x2000, .idle] ++ [.engine] := by decide

theorem witness_ResultsPersistUntilNextStart :
    State.reset.status.busy = false ∧
    (nextOf (transition (.write 0x1000 9) State.reset)).isSome = true ∧
    PortEvent.write 0x1000 9 ≠ .reset ∧ ∀ v, PortEvent.write 0x1000 9 ≠ .write 0x0000 v :=
  ⟨rfl, rfl, by decide, fun v h => by injection h with h _; revert h; decide⟩

/-- Each clause's event has a next state. -/
theorem witness_StateMachineTransitions :
    (nextOf (transition .reset (busyWith sixteen 0 []))).isSome = true ∧
    (nextOf (transition (.write 0x0000 8) State.reset)).isSome = true ∧
    (nextOf (transition .engine (busyWith sixteen 0 []))).isSome = true ∧
    (nextOf (transition (.write 0x0000 8) (busyWith sixteen 0 []))).isSome = true :=
  ⟨rfl, rfl, rfl, rfl⟩

/-- A busy state that meets the invariant and steps. -/
theorem witness_StepKeepsInvariant :
    (busyWith sixteen 1 [0x61]).Inv ∧ (nextOf (step (busyWith sixteen 1 [0x61]))).isSome = true := by
  refine ⟨⟨⟨by decide, by decide, by decide, by decide, by decide, by decide⟩,
    ⟨by decide, by decide, by decide, by decide⟩, ⟨?_, ?_, ?_⟩, ?_⟩, by decide⟩
  · intro _ h; cases h
  · intro _ _ h; cases h
  · intro _ h; cases h
  · unfold State.readsUndefined; decide

/-- A reachable state in which a reserved command has failed, two steps from reset. -/
theorem witness_ReachableStatusValues : ∃ s, Reachable s ∧ s.status.word = 0x42 :=
  ⟨_, .step _ _ (.step _ _ (.reset sixteen [.write 0x0000 0x06, .engine]) rfl) rfl, by decide⟩

/-- A reachable state in which an operation has succeeded, two steps from reset. -/
theorem witness_ReachableBuffersWithinCapacity :
    ∃ s, Reachable s ∧ s.status.ok = true ∧ decodeByte s.cmd = .instr .encStdPad :=
  ⟨_, .step _ _ (.step _ _ (.reset sixteen [.write 0x0000 0x08, .engine]) rfl) rfl, rfl, by decide⟩

theorem witness_OutputPins :
    (nextOf (step { State.reset with schedule := [.write 0x0001 5], hRdata := 9 })).map
      State.hRdata = some 0 := by decide

/-- The smallest host sequence, from reset. -/
theorem witness_HostSequenceRunsOperation :
    State.reset.status.busy = false ∧ ([0x61] : List Byte).length ≤ State.reset.cfg.inCap ∧
    { State.reset with schedule := scriptEvents [.load [0x61], .run .encStdPad, .wait 0] }.schedule =
      scriptEvents [.load [0x61], .run .encStdPad, .wait 0] ++ [] := by decide

/-- A reachable state with an operation in progress, and one whose next step is the `CMD` write of a wrong
host program. -/
theorem witness_StartedOperationsComplete :
    (∃ s, Reachable s ∧ s.status.busy = true) ∧
    ∃ s, Reachable s ∧ step s = .fault .undefinedInput :=
  ⟨⟨_, .step _ _ (.reset sixteen [.write 0x0000 0x08]) rfl, rfl⟩,
    _, .step _ _ (.reset sixteen [.write 0x0001 1, .write 0x0000 0x08]) rfl, rfl⟩

end Sys2Proof.Tests
end

/-! PROOFS. Two states with the same capacities, `IN_LEN` and covered input complete an operation alike
(R16, R34): each operation is shown to lead both to the completion with one and the same result, and a
completion writes `STATUS`, `OUT_LEN` and the covered output from its result alone. -/

namespace Sys2Proof.Machine

/-! ### What a completion makes of its result -/

theorem State.complete_status_congr (s s' : State) (r : OpResult) :
    (s.complete r).status = (s'.complete r).status := by cases r <;> rfl

theorem State.complete_outLen_congr (s s' : State) (r : OpResult) :
    (s.complete r).outLen = (s'.complete r).outLen := by cases r <;> rfl

/-- A success writes as many bytes as it reports in `OUT_LEN`. -/
def OpResult.FillsOutput : OpResult → Prop
  | .ok len out => out.length = len
  | .fail _ _ => True

/-- Below `OUT_LEN` every entry is one of the result's own bytes. -/
theorem State.readByte_complete_ok (s : State) {len : Nat} {out : List Byte}
    (hl : out.length = len) {k : Nat} (hk : k < (s.complete (.ok len out)).outLen.toNat) :
    (s.complete (.ok len out)).obuf.readByte k = out[k]? := by
  have hlen : k < out.length := by
    rw [complete_ok_outLen, BitVec.toNat_ofNat] at hk
    exact hl ▸ Nat.lt_of_lt_of_le hk (Nat.mod_le _ _)
  rw [complete_ok_obuf, Memory.readByte_writeRun, if_pos (by omega), Nat.sub_zero]

theorem State.complete_obuf_congr (s s' : State) {r : OpResult} (hr : r.FillsOutput)
    (hok : (s.complete r).status.ok = true) {k : Nat} (hk : k < (s.complete r).outLen.toNat) :
    (s'.complete r).obuf.readByte k = (s.complete r).obuf.readByte k := by
  cases r with
  | ok len out => rw [s.readByte_complete_ok hr hk, s'.readByte_complete_ok hr hk]
  | fail kind n => cases hok

/-! ### States that agree on what an operation reads (R28, R30) -/

/-- The capacities, `IN_LEN` and every entry it covers are the same. -/
structure SameInput (s s' : State) : Prop where
  cfg : s.cfg = s'.cfg
  inLen : s.inLen = s'.inLen
  ibuf : ∀ k < s.inLen.toNat, s.ibuf.readByte k = s'.ibuf.readByte k

theorem Memory.readRun_congr {m m' : Memory} {i n : Nat}
    (h : ∀ k < n, m.readByte (i + k) = m'.readByte (i + k)) : m.readRun i n = m'.readRun i n := by
  refine Option.ext fun bs => ?_
  rw [readRun_eq_some_iff, readRun_eq_some_iff]
  exact and_congr_right fun _ => forall₂_congr fun k hk => by rw [h k hk]

theorem SameInput.inCount {s s' : State} (h : SameInput s s') : s.inCount = s'.inCount :=
  congrArg BitVec.toNat h.inLen

theorem SameInput.readInput {s s' : State} (h : SameInput s s') :
    s.readInput s.inCount = s'.readInput s.inCount :=
  Memory.readRun_congr fun k hk => by simpa using h.ibuf k hk

/-! ### Each operation from two such states -/

/-- Two answers, from `s` and from `s'`: both stop, or both complete with one result, which fills the
output it reports where `writes` asks for it. -/
inductive CompleteAlike (writes : Bool) (s s' : State) :
    Host.Outcome State Fault Refusal → Host.Outcome State Fault Refusal → Prop where
  | stop (why : Fault) : CompleteAlike writes s s' (.fault why) (.fault why)
  | complete (r : OpResult) (fills : writes = true → r.FillsOutput) :
    CompleteAlike writes s s' (.next (s.complete r)) (.next (s'.complete r))

theorem length_of_readInput {s : State} {bs : List Byte}
    (h : s.readInput s.inCount = some bs) : bs.length = s.inCount :=
  ((readInput_eq_some_iff s bs).mp h).1

theorem decodeOutcome_fillsOutput (m : Nat) (p : Bool) (d : DecodeResult) :
    (decodeOutcome m p d).FillsOutput := by
  cases d with
  | bytes out => exact rfl
  | err k => exact trivial

section
variable {s s' : State} (h : SameInput s s')
include h

theorem SameInput.encOp_alike (a : Alphabet) (p : Bool) :
    CompleteAlike true s s' (encOp a p s) (encOp a p s') := by
  unfold encOp
  rw [← h.cfg, ← h.inCount, ← h.readInput]
  split_ifs with hin hout
  · exact .complete _ fun _ => trivial
  · exact .complete _ fun _ => trivial
  · cases hr : s.readInput s.inCount with
    | none => exact .stop _
    | some bs =>
      have hl : (encodeSeq a p bs).length = encodedLength s.inCount p := by
        rw [encodeSeq_length, length_of_readInput hr]
      exact .complete _ fun _ => hl

theorem SameInput.decOp_alike (a : Alphabet) (p : Bool) :
    CompleteAlike true s s' (decOp a p s) (decOp a p s') := by
  unfold decOp
  rw [← h.cfg, ← h.inCount, ← h.readInput]
  split_ifs with hin hout hbad
  · exact .complete _ fun _ => trivial
  · exact .complete _ fun _ => trivial
  · exact .complete _ fun _ => trivial
  · cases s.readInput s.inCount with
    | none => exact .stop _
    | some symbols => exact .complete _ fun _ => decodeOutcome_fillsOutput _ _ _

theorem SameInput.encLenOp_alike (p : Bool) :
    CompleteAlike false s s' (encLenOp p s) (encLenOp p s') := by
  unfold encLenOp
  rw [← h.inCount]
  dsimp only
  split_ifs with hlen
  · exact .complete _ nofun
  · exact .complete _ nofun

theorem SameInput.decLenOp_alike (p : Bool) :
    CompleteAlike false s s' (decLenOp p s) (decLenOp p s') := by
  unfold decLenOp
  rw [← h.inCount]
  exact .complete _ nofun

end

theorem writesOutput_codecForm : ∀ f ∈ encForms ++ decForms, writesOutput f.1 = true := by decide

theorem writesOutput_lengthForm : ∀ f ∈ encLenForms ++ decLenForms, writesOutput f.1 = false := by
  decide

theorem SameInput.exec_alike {s s' : State} (h : SameInput s s') (i : Instr) :
    CompleteAlike (writesOutput i) s s' (exec i s) (exec i s') := by
  rcases exec_eq_shell i s with ⟨a, p, hf, -⟩ | ⟨a, p, hf, -⟩ | ⟨p, hf, -⟩ | ⟨p, hf, -⟩
  · rw [show exec i = encOp a p from funext (exec_encForm _ hf),
      writesOutput_codecForm _ (List.mem_append_left _ hf)]
    exact h.encOp_alike a p
  · rw [show exec i = decOp a p from funext (exec_decForm _ hf),
      writesOutput_codecForm _ (List.mem_append_right _ hf)]
    exact h.decOp_alike a p
  · rw [show exec i = encLenOp p from funext (exec_encLenForm _ hf),
      writesOutput_lengthForm _ (List.mem_append_left _ hf)]
    exact h.encLenOp_alike p
  · rw [show exec i = decLenOp p from funext (exec_decLenForm _ hf),
      writesOutput_lengthForm _ (List.mem_append_right _ hf)]
    exact h.decLenOp_alike p

/-- Settles O40: both states complete with the same result, which alone determines what is reported. -/
theorem outcomeDependsOnInputsAlone : Obligations.OutcomeDependsOnInputsAlone := by
  intro i s s' t hcfg hlen hbuf hx
  have halike := (SameInput.mk hcfg hlen hbuf).exec_alike i
  rw [hx] at halike
  generalize exec i s' = o' at halike ⊢
  cases halike with
  | complete r fills =>
    exact ⟨_, rfl, s'.complete_status_congr s r, s'.complete_outLen_congr s r,
      fun hok hw _ hk => s.complete_obuf_congr s' (fills hw) hok hk⟩

end Sys2Proof.Machine

/-! PROOFS. What each transition of the port makes of the state (R21, R36, R37, R39 to R42), and the
invariant of a run (R27 to R30, R171). The shared rules come first: `exec_outcome` says once all an
operation can answer, `hostWrite_next` and `engineTurn_next` do so for a write and for the engine's
turn. Every transition is shown to keep the invariant by one lemma per change it can make. -/

namespace Sys2Proof.Machine

/-! ### How many bytes a decode yields, and the kinds it fails with (R141, R144, R148) -/

/-- At most `bound` bytes, or a failure with a kind that a decode may report (R171). -/
def DecodeResult.Within (bound : Nat) : DecodeResult → Prop
  | .bytes out => out.length ≤ bound
  | .err kind => kind ≠ .illegalCmd

theorem DecodeResult.Within.mono {m n : Nat} {d : DecodeResult} (h : d.Within m) (hmn : m ≤ n) :
    d.Within n := by
  cases d with
  | bytes out => exact Nat.le_trans h hmn
  | err kind => exact h

theorem DecodeResult.Within.prepend {n : Nat} {d : DecodeResult} (h : d.Within n)
    (out : List Byte) : (d.prepend out).Within (out.length + n) := by
  cases d with
  | bytes more => exact List.length_append.le.trans (Nat.add_le_add_left h _)
  | err kind => exact h

theorem checkEntry_ne_illegalCmd {v : Entry} {kind : FailKind} (h : checkEntry v = some kind) :
    kind ≠ .illegalCmd := by
  unfold checkEntry at h
  split_ifs at h <;> cases h <;> decide

theorem checkAll_ne_illegalCmd {vs : List Entry} {kind : FailKind}
    (h : checkAll vs = some kind) : kind ≠ .illegalCmd := by
  induction vs with
  | nil => cases h
  | cons v vs ih =>
    simp only [checkAll] at h
    split at h
    · cases h; exact checkEntry_ne_illegalCmd ‹_›
    · exact ih h

theorem unpackGroup_length_le (vs : List Entry) : (unpackGroup vs).length ≤ vs.length - 1 := by
  unfold unpackGroup
  split <;> simp [unpackFour, unpackThree, unpackTwo]

theorem finalGroup_within (p : Bool) (vs : List Entry) :
    (finalGroup p vs).Within (vs.length - 1) := by
  unfold finalGroup
  dsimp only
  split
  · exact checkAll_ne_illegalCmd ‹_›
  · have hlen := unpackGroup_length_le (vs.take (needed p vs))
    have htake := List.length_take_le' (needed p vs) vs
    exact Nat.le_trans hlen (Nat.sub_le_sub_right htake 1)

theorem decodeGroups_within (a : Alphabet) (p : Bool) (ss : List Byte) :
    (decodeGroups a p ss).Within (ss.length / 4 * 3 + ss.length % 4) := by
  induction ss using fours_induction with
  | nil => exact Nat.le_refl 0
  | one s => exact (finalGroup_within p _).mono (by simp)
  | two s0 s1 => exact (finalGroup_within p _).mono (by simp)
  | three s0 s1 s2 => exact (finalGroup_within p _).mono (by simp)
  | four s0 s1 s2 s3 => exact (finalGroup_within p _).mono (by simp)
  | group s0 s1 s2 s3 rest hne ih =>
    rw [decodeGroups_group _ _ _ _ _ _ _ hne]
    split
    · exact checkAll_ne_illegalCmd ‹_›
    · refine (ih.prepend _).mono ?_
      have hgroup := unpackGroup_length_le ([s0, s1, s2, s3].map (decEntry a))
      simp only [List.length_map, List.length_cons, List.length_nil] at hgroup ⊢
      omega

/-- Past the length check a decode keeps to the bound of R111. -/
theorem decodeSeq_within {a : Alphabet} {p : Bool} {ss : List Byte}
    (h : badLength p ss.length = false) :
    (decodeSeq a p ss).Within (decodedLength ss.length p) := by
  have hbound : ss.length / 4 * 3 + ss.length % 4 = decodedLength ss.length p := by
    cases p with
    | false => rfl
    | true => simpa [badLength, decodedLength] using h
  rw [decodeSeq, if_neg (by simp [h]), ← hbound]
  exact decodeGroups_within a p ss

/-! ### All an operation can answer (R30, R41, R171) -/

/-- A result that operation `i` may complete with: its output fits `OBUF` and, where `i` writes one,
is as long as it reports (R57); its kind is one of `i`'s own (R171). -/
def OpResult.AgreesWith (i : Instr) (outCap : Nat) : OpResult → Prop
  | .ok len out => out.length ≤ outCap ∧ (writesOutput i = true → out.length = len)
  | .fail kind _ => mayFailWith i kind = true

/-- It completes with a result that agrees with the operation, or stops on undefined input. -/
def OutcomeAgrees (i : Instr) (s : State) (o : Host.Outcome State Fault Refusal) : Prop :=
  (∃ r, o = .next (s.complete r) ∧ r.AgreesWith i s.cfg.outCap) ∨
  (o = .fault .undefinedInput ∧ writesOutput i = true)

theorem mayFailWith_range_encForm : ∀ f ∈ encForms, mayFailWith f.1 .range = true := by decide

theorem mayFailWith_range_encLenForm : ∀ f ∈ encLenForms, mayFailWith f.1 .range = true := by
  decide

theorem mayFailWith_decForm (kind : FailKind) (h : kind ≠ .illegalCmd) :
    ∀ f ∈ decForms, mayFailWith f.1 kind = true := by
  cases kind with
  | illegalCmd => exact absurd rfl h
  | malformedInput => decide
  | invalidSymbol => decide
  | misplacedPadding => decide
  | range => decide

section
variable {i : Instr} {a : Alphabet} {p : Bool}

theorem encOp_outcome (hf : (i, a, p) ∈ encForms) (s : State) :
    OutcomeAgrees i s (encOp a p s) := by
  rcases encOp_cases a p s with ⟨-, hx⟩ | ⟨-, hcap, ⟨-, hx⟩ | ⟨bs, hbs, hx⟩⟩
  · exact .inl ⟨_, hx, mayFailWith_range_encForm _ hf⟩
  · exact .inr ⟨hx, writesOutput_codecForm _ (List.mem_append_left _ hf)⟩
  · have hlen : (encodeSeq a p bs).length = encodedLength s.inCount p := by
      rw [encodeSeq_length, length_of_readInput hbs]
    exact .inl ⟨_, hx, hlen ▸ hcap, fun _ => hlen⟩

theorem decodeOutcome_agreesWith (hf : (i, a, p) ∈ decForms) {m outCap : Nat} {d : DecodeResult}
    (hd : d.Within (decodedLength m p)) (hcap : decodedLength m p ≤ outCap) :
    (decodeOutcome m p d).AgreesWith i outCap := by
  cases d with
  | bytes out => exact ⟨Nat.le_trans hd hcap, fun _ => rfl⟩
  | err kind => exact mayFailWith_decForm kind hd _ hf

theorem decOp_outcome (hf : (i, a, p) ∈ decForms) (s : State) :
    OutcomeAgrees i s (decOp a p s) := by
  rcases decOp_cases a p s with
    ⟨-, hx⟩ | ⟨-, hcap, ⟨-, hx⟩ | ⟨hlen, ⟨-, hx⟩ | ⟨ss, hss, hx⟩⟩⟩
  · exact .inl ⟨_, hx, mayFailWith_decForm .range (by decide) _ hf⟩
  · exact .inl ⟨_, hx, mayFailWith_decForm .malformedInput (by decide) _ hf⟩
  · exact .inr ⟨hx, writesOutput_codecForm _ (List.mem_append_right _ hf)⟩
  · rw [← length_of_readInput hss] at hlen hcap hx
    exact .inl ⟨_, hx, decodeOutcome_agreesWith hf (decodeSeq_within hlen) hcap⟩

/-- A length operation writes no output, so any length agrees with it. -/
theorem ok_nil_agreesWith (hf : (i, p) ∈ encLenForms ++ decLenForms) (len outCap : Nat) :
    (OpResult.ok len []).AgreesWith i outCap :=
  ⟨Nat.zero_le _, fun hw => by simp [writesOutput_lengthForm _ hf] at hw⟩

theorem encLenOp_outcome (hf : (i, p) ∈ encLenForms) (s : State) :
    OutcomeAgrees i s (encLenOp p s) := by
  rcases encLenOp_cases p s with ⟨-, hx⟩ | ⟨-, hx⟩
  · exact .inl ⟨_, hx, mayFailWith_range_encLenForm _ hf⟩
  · exact .inl ⟨_, hx, ok_nil_agreesWith (List.mem_append_left _ hf) _ _⟩

theorem decLenOp_outcome (hf : (i, p) ∈ decLenForms) (s : State) :
    OutcomeAgrees i s (decLenOp p s) :=
  .inl ⟨_, rfl, ok_nil_agreesWith (List.mem_append_right _ hf) _ _⟩

end

/-- All an operation can answer, from any state. -/
theorem exec_outcome (i : Instr) (s : State) : OutcomeAgrees i s (exec i s) := by
  rcases exec_eq_shell i s with ⟨a, p, hf, hx⟩ | ⟨a, p, hf, hx⟩ | ⟨p, hf, hx⟩ | ⟨p, hf, hx⟩ <;>
    rw [hx]
  · exact encOp_outcome hf s
  · exact decOp_outcome hf s
  · exact encLenOp_outcome hf s
  · exact decLenOp_outcome hf s

/-! ### Where an operation stops (R30, R172, R208) -/

/-- A next state is no stop. -/
theorem next_ne_fault {o : Host.Outcome State Fault Refusal} {t : State} {why : Fault}
    (h : o = .next t) : o ≠ .fault why := by
  rw [h]; nofun

theorem encOp_fault_iff (a : Alphabet) (p : Bool) (s : State) :
    encOp a p s = .fault .undefinedInput ↔
      s.inCount ≤ s.cfg.inCap ∧ encodedLength s.inCount p ≤ s.cfg.outCap ∧
      ∃ k < s.inCount, s.ibuf.readByte k = none := by
  rw [← readInput_eq_none_iff]
  rcases encOp_cases a p s with ⟨hcap, hx⟩ | ⟨hin, hout, ⟨hr, hx⟩ | ⟨bs, hr, hx⟩⟩
  · exact iff_of_false (next_ne_fault hx) (by omega)
  · exact iff_of_true hx ⟨hin, hout, hr⟩
  · exact iff_of_false (next_ne_fault hx) (by simp [hr])

theorem decOp_fault_iff (a : Alphabet) (p : Bool) (s : State) :
    decOp a p s = .fault .undefinedInput ↔
      s.inCount ≤ s.cfg.inCap ∧ decodedLength s.inCount p ≤ s.cfg.outCap ∧
      badLength p s.inCount = false ∧ ∃ k < s.inCount, s.ibuf.readByte k = none := by
  rw [← readInput_eq_none_iff]
  rcases decOp_cases a p s with
    ⟨hcap, hx⟩ | ⟨hin, hout, ⟨hbad, hx⟩ | ⟨hlen, ⟨hr, hx⟩ | ⟨ss, hr, hx⟩⟩⟩
  · exact iff_of_false (next_ne_fault hx) (by omega)
  · exact iff_of_false (next_ne_fault hx) (by simp [hbad])
  · exact iff_of_true hx ⟨hin, hout, hlen, hr⟩
  · exact iff_of_false (next_ne_fault hx) (by simp [hr])

theorem exec_fault_writesOutput {i : Instr} {s : State} {why : Fault}
    (h : exec i s = .fault why) : writesOutput i = true := by
  rcases exec_outcome i s with ⟨r, hx, -⟩ | ⟨-, hw⟩
  · cases hx.symm.trans h
  · exact hw

/-- Settles O35: the two families that can stop do so exactly as their shells say, and
`exec_outcome` leaves no other stop and no refusal. -/
theorem faultOnlyOnUndefinedInput : Obligations.FaultOnlyOnUndefinedInput := by
  refine ⟨fun f hf s => ?_, fun f hf s => ?_, fun i s why h => ?_, fun i s why h => ?_⟩
  · rw [exec_encForm f hf]
    exact encOp_fault_iff f.2.1 f.2.2 s
  · rw [exec_decForm f hf]
    exact decOp_fault_iff f.2.1 f.2.2 s
  · rcases exec_outcome i s with ⟨r, hx, -⟩ | ⟨hx, -⟩ <;> cases hx.symm.trans h
  · exact exec_fault_writesOutput h

/-! ### The engine's step and the start of an operation (R30, R40, R41) -/

theorem engineStep_of_instr {s : State} {i : Instr} (h : decodeByte s.cmd = .instr i) :
    engineStep s = exec i s := by
  simp only [engineStep, h]

theorem engineStep_of_rejected {s : State} {why : Reject} (h : decodeByte s.cmd = .rejected why) :
    engineStep s = .next s.completeIllegal := by
  simp only [engineStep, h]

/-- The engine's step stops exactly where the operation in `CMD` would read an undefined entry. -/
theorem engineStep_fault_iff (s : State) :
    engineStep s = .fault .undefinedInput ↔ s.readsUndefined s.cmd := by
  constructor
  · intro h
    rcases engineStep_cases s with ⟨i, hi, he⟩ | ⟨why, -, he⟩
    · rw [he] at h
      rcases exec_eq_shell i s with ⟨a, p, hf, hx⟩ | ⟨a, p, hf, hx⟩ | ⟨p, hf, -⟩ | ⟨p, hf, -⟩
      · exact .inl ⟨_, hf, hi, (encOp_fault_iff a p s).mp (hx ▸ h)⟩
      · exact .inr ⟨_, hf, hi, (decOp_fault_iff a p s).mp (hx ▸ h)⟩
      · exact absurd (exec_fault_writesOutput h)
          (by simp [writesOutput_lengthForm _ (List.mem_append_left _ hf)])
      · exact absurd (exec_fault_writesOutput h)
          (by simp [writesOutput_lengthForm _ (List.mem_append_right _ hf)])
    · exact absurd h (next_ne_fault he)
  · rintro (⟨f, hf, hi, hstop⟩ | ⟨f, hf, hi, hstop⟩)
    · rw [engineStep_of_instr hi, exec_encForm f hf]
      exact (encOp_fault_iff f.2.1 f.2.2 s).mpr hstop
    · rw [engineStep_of_instr hi, exec_decForm f hf]
      exact (decOp_fault_iff f.2.1 f.2.2 s).mpr hstop

/-- An engine's step that answers completes the operation, with a result that agrees with it, or
with `ILLEGAL_CMD` (R75). -/
theorem engineStep_next {s t : State} (h : engineStep s = .next t) :
    (∃ i r, decodeByte s.cmd = .instr i ∧ t = s.complete r ∧ r.AgreesWith i s.cfg.outCap) ∨
    (∃ why, decodeByte s.cmd = .rejected why ∧ t = s.complete (.fail .illegalCmd 0)) := by
  rcases engineStep_cases s with ⟨i, hi, he⟩ | ⟨why, hw, he⟩
  · rcases exec_outcome i s with ⟨r, hx, hr⟩ | ⟨hx, -⟩
    · cases h.symm.trans (he.trans hx)
      exact .inl ⟨i, r, hi, rfl, hr⟩
    · cases h.symm.trans (he.trans hx)
  · cases h.symm.trans he
    exact .inr ⟨why, hw, rfl⟩

/-- Nothing that `readsUndefined` looks at is changed by the start. -/
theorem State.start_readsUndefined (s : State) (c : Byte) :
    (s.start c).readsUndefined (s.start c).cmd ↔ s.readsUndefined c := Iff.rfl

theorem startOperation_of_defined {s : State} {c : Byte} (h : ¬s.readsUndefined c) :
    startOperation c s = .next (s.start c) := by
  rcases startOperation_cases c s with ⟨-, hx⟩ | ⟨hstop, -⟩
  · exact hx
  · exact absurd ((s.start_readsUndefined c).mp ((engineStep_fault_iff _).mp hstop)) h

theorem startOperation_of_undefined {s : State} {c : Byte} (h : s.readsUndefined c) :
    startOperation c s = .fault .undefinedInput := by
  have hstop := (engineStep_fault_iff _).mpr ((s.start_readsUndefined c).mpr h)
  rcases startOperation_cases c s with ⟨⟨t, hnext⟩, -⟩ | ⟨-, hx⟩
  · exact absurd hstop (next_ne_fault hnext)
  · exact hx

theorem startOperation_next {s t : State} {c : Byte} (h : startOperation c s = .next t) :
    ¬s.readsUndefined c ∧ t = s.start c := by
  by_cases hu : s.readsUndefined c
  · cases (startOperation_of_undefined hu).symm.trans h
  · cases (startOperation_of_defined hu).symm.trans h
    exact ⟨hu, rfl⟩

/-- While busy the engine's turn is a completion; otherwise it is nothing (R20, R41). -/
theorem engineTurn_of_busy {s : State} (h : s.status.busy = true) :
    engineTurn s = engineStep s := if_pos h

theorem engineTurn_of_not_busy {s : State} (h : s.status.busy = false) :
    engineTurn s = .next s := if_neg (by simp [h])

theorem engineStep_next_complete {s t : State} (h : engineStep s = .next t) :
    ∃ r, t = s.complete r := by
  rcases engineStep_next h with ⟨-, r, -, rfl, -⟩ | ⟨-, -, rfl⟩
  · exact ⟨r, rfl⟩
  · exact ⟨_, rfl⟩

theorem engineTurn_next {s t : State} (h : engineTurn s = .next t) :
    (s.status.busy = false ∧ t = s) ∨ (s.status.busy = true ∧ ∃ r, t = s.complete r) := by
  cases hb : s.status.busy with
  | false =>
    cases (engineTurn_of_not_busy hb).symm.trans h
    exact .inl ⟨rfl, rfl⟩
  | true => exact .inr ⟨rfl, engineStep_next_complete ((engineTurn_of_busy hb).symm.trans h)⟩

/-! ### The host port by address (R22, R36, R37) -/

section
variable (cfg : Config) {a : Addr}

theorem locationOf_cmd (h : a.toNat = 0x0000) : locationOf cfg a = .cmd := by
  simp [locationOf, h]

theorem locationOf_inLen (h : a.toNat = 0x0001) : locationOf cfg a = .inLen := by
  simp [locationOf, h]

theorem locationOf_outLen (h : a.toNat = 0x0002) : locationOf cfg a = .outLen := by
  simp [locationOf, h]

theorem locationOf_status (h : a.toNat = 0x0003) : locationOf cfg a = .status := by
  simp [locationOf, h]

end

section
variable {s : State} (hb : s.status.busy = false) {a : Addr} (v : Data)
include hb

theorem hostWrite_cmd (ha : a.toNat = 0x0000) :
    hostWrite a v s = startOperation (v.extractLsb' 0 8) s := by
  simp [hostWrite, hb, locationOf_cmd s.cfg ha]

theorem hostWrite_inLen (ha : a.toNat = 0x0001) :
    hostWrite a v s = .next { s with inLen := v } := by
  simp [hostWrite, hb, locationOf_inLen s.cfg ha]

theorem hostWrite_ibuf {i : Nat} (hi : i < s.cfg.inCap) (ha : a.toNat = 0x1000 + i) :
    hostWrite a v s = .next { s with ibuf := s.ibuf.writeByte i (v.extractLsb' 0 8) } := by
  simp [hostWrite, hb, locationOf_ibuf s.cfg a i hi ha]

end

theorem hostWrite_elsewhere {a : Addr} (v : Data) {s : State} (h0 : a.toNat ≠ 0x0000)
    (h1 : a.toNat ≠ 0x0001) (hi : ¬(0x1000 ≤ a.toNat ∧ a.toNat < 0x1000 + s.cfg.inCap)) :
    hostWrite a v s = .next s := by
  rcases hostWrite_cases a v s with hx | ⟨-, ⟨ha, -⟩ | ⟨ha, -⟩ | ⟨i, hlt, ha, -⟩⟩
  · exact hx
  · exact absurd ha h0
  · exact absurd ha h1
  · exact absurd (by omega) hi

/-- All a write that answers can have done: nothing, or while not busy the start of an operation on
defined input, a new `IN_LEN`, or a new `IBUF` entry. -/
theorem hostWrite_next {a : Addr} {v : Data} {s t : State} (h : hostWrite a v s = .next t) :
    t = s ∨
    (s.status.busy = false ∧
      ((a.toNat = 0x0000 ∧ ¬s.readsUndefined (v.extractLsb' 0 8) ∧
          t = s.start (v.extractLsb' 0 8)) ∨
        t = { s with inLen := v } ∨
        ∃ i < s.cfg.inCap, t = { s with ibuf := s.ibuf.writeByte i (v.extractLsb' 0 8) })) := by
  rcases hostWrite_cases a v s with hx | ⟨hb, ⟨ha, hx⟩ | ⟨-, hx⟩ | ⟨i, hi, -, hx⟩⟩ <;> rw [hx] at h
  · cases h; exact .inl rfl
  · exact .inr ⟨hb, .inl ⟨ha, startOperation_next h⟩⟩
  · cases h; exact .inr ⟨hb, .inr (.inl rfl)⟩
  · cases h; exact .inr ⟨hb, .inr (.inr ⟨i, hi, rfl⟩)⟩

/-- Settles O43: the write is the start of an operation, which asks the engine's step what it will
answer. -/
theorem commandWriteStarts : Obligations.CommandWriteStarts := by
  refine fun s v => ⟨fun hb hu => ?_, fun hb hu => ?_, fun hb => hostWrite_busy _ v s hb⟩
  · rw [hostWrite_cmd hb v rfl, startOperation_of_defined hu]
    rfl
  · rw [hostWrite_cmd hb v rfl, startOperation_of_undefined hu]

/-- Settles O44, one rule of the port for each range of addresses. -/
theorem hostWriteByAddress : Obligations.HostWriteByAddress := by
  refine fun a v s => ⟨hostWrite_busy a v s, fun hb => ⟨fun ha hu => ?_, fun ha hu => ?_,
    hostWrite_inLen hb v, fun i hi ha => ?_, hostWrite_elsewhere v⟩⟩
  · rw [hostWrite_cmd hb v ha, startOperation_of_defined hu]
  · rw [hostWrite_cmd hb v ha, startOperation_of_undefined hu]
  · exact ⟨_, hostWrite_ibuf hb v hi ha, rfl, fun j => Memory.readByte_writeByte _ _ _ _⟩

section
variable {a : Addr} {s : State}

theorem hostRead_hRdata_of_value {v : Data}
    (h : readLocation s (locationOf s.cfg a) = some v) : (hostRead a s).hRdata = v := by
  simp only [hostRead, h]

theorem hostRead_hRdata_of_none (h : readLocation s (locationOf s.cfg a) = none) :
    (hostRead a s).hRdata = (Config.freeByte s.draws).setWidth 32 := by
  simp only [hostRead, h]

/-- A read of an entry gives its byte where it has one, and some byte in any case (R30, R37). -/
theorem hostRead_hRdata_of_entry {entry : Option Byte}
    (h : readLocation s (locationOf s.cfg a) = entry.map fun b => b.setWidth 32) :
    (∀ b, entry = some b → (hostRead a s).hRdata = b.setWidth 32) ∧
    ∃ u : Byte, (hostRead a s).hRdata = u.setWidth 32 := by
  cases entry with
  | some b => exact ⟨fun _ hb => by cases hb; exact hostRead_hRdata_of_value h,
      b, hostRead_hRdata_of_value h⟩
  | none => exact ⟨nofun, _, hostRead_hRdata_of_none h⟩

end

theorem readLocation_obuf (s : State) (i : Nat) :
    readLocation s (.obuf i) =
      (if s.status.busy then none else s.obuf.readByte i).map fun b => b.setWidth 32 := by
  cases hb : s.status.busy <;> simp [readLocation, hb]

/-- A read changes the pin and the count of draws alone. -/
theorem hostRead_frame (a : Addr) (s : State) :
    hostRead a s = { s with hRdata := (hostRead a s).hRdata, draws := (hostRead a s).draws } := by
  unfold hostRead
  split <;> rfl

/-- Settles O45: the register map gives the location, and what the location holds goes to the pin.
-/
theorem hostReadByAddress : Obligations.HostReadByAddress := by
  refine fun a s => ⟨fun ha => ?_, fun ha => ?_, fun ha => ?_, fun ha => ?_, fun i hi ha => ?_,
    fun i hi ha => ?_, fun h4 hi ho => ?_, hostRead_frame a s⟩
  · exact hostRead_hRdata_of_value (by rw [locationOf_cmd _ ha]; rfl)
  · exact hostRead_hRdata_of_value (by rw [locationOf_inLen _ ha]; rfl)
  · exact hostRead_hRdata_of_value (by rw [locationOf_outLen _ ha]; rfl)
  · exact hostRead_hRdata_of_value (by rw [locationOf_status _ ha]; rfl)
  · exact hostRead_hRdata_of_entry (by rw [locationOf_ibuf _ a i hi ha]; rfl)
  · have hentry := hostRead_hRdata_of_entry (a := a)
      ((congrArg (readLocation s) (locationOf_obuf s.cfg a i hi ha)).trans
        (readLocation_obuf s i))
    refine ⟨fun b hb hread => hentry.1 b ?_, hentry.2⟩
    rw [if_neg (by simp [hb]), hread]
  · exact hostRead_hRdata_of_value (by rw [locationOf_unmapped _ a h4 hi ho]; rfl)

/-! ### The states of the engine and the pins (R21, R26, R42) -/

/-- Bits 3:0 of the word of R37. -/
theorem Status.getLsbD_word_low (t : Status) :
    t.word.getLsbD 0 = t.busy ∧ t.word.getLsbD 1 = t.done ∧ t.word.getLsbD 2 = t.ok ∧
    t.word.getLsbD 3 = false := by
  simp only [Status.word, BitVec.getLsbD_append]
  simp

/-- From bit 4 on the word is `ERR`, with zeros above it. -/
theorem Status.getLsbD_word_high (t : Status) (i : Nat) :
    t.word.getLsbD (4 + i) = t.errCode.getLsbD i := by
  have hzero : 3 ≤ i → t.errCode.getLsbD i = false := BitVec.getLsbD_of_ge _ _
  simp only [Status.word, BitVec.getLsbD_append]
  grind

/-- Settles O42: the word's bits one at a time, the eight values by computation. -/
theorem statusWordFields : Obligations.StatusWordFields := by
  refine ⟨fun t => ?_, by decide, by decide⟩
  obtain ⟨h0, h1, h2, h3⟩ := t.getLsbD_word_low
  refine ⟨h0, h1, h2, h3, BitVec.eq_of_getLsbD_eq fun i hi => ?_,
    BitVec.eq_of_getLsbD_eq fun i hi => ?_⟩
  · rw [BitVec.getLsbD_extractLsb', t.getLsbD_word_high, decide_eq_true hi, Bool.true_and]
  · rw [BitVec.getLsbD_extractLsb', show 7 + i = 4 + (3 + i) by omega, t.getLsbD_word_high,
      BitVec.getLsbD_of_ge _ _ (by omega), Bool.and_false]
    exact BitVec.getLsbD_zero.symm

/-- Settles O41: every field of the state after reset by its definition (R39). -/
theorem resetFromAnyState : Obligations.ResetFromAnyState :=
  ⟨fun _ => rfl, rfl, rfl, rfl, rfl, rfl, rfl, fun _ => ⟨rfl, rfl⟩⟩

/-- A write that starts no operation keeps `STATUS`. -/
theorem hostWrite_status {a : Addr} {v : Data} {s t : State} (h : hostWrite a v s = .next t)
    (hstart : ¬(s.status.busy = false ∧ a.toNat = 0x0000)) : t.status = s.status := by
  rcases hostWrite_next h with rfl | ⟨hb, ⟨ha, -⟩ | rfl | ⟨i, -, rfl⟩⟩
  · rfl
  · exact absurd ⟨hb, ha⟩ hstart
  · rfl
  · rfl

/-- Settles O53, event by event: only the start and the completion set new values of `STATUS`. -/
theorem stateMachineTransitions : Obligations.StateMachineTransitions := by
  intro e s t h
  cases e with
  | idle => cases h; simp
  | read a => cases h; simp
  | reset => cases h; simp [Status.idle]
  | engine =>
    rcases engineTurn_next h with ⟨hb, rfl⟩ | ⟨hb, r, rfl⟩ <;> simp [hb]
  | write a v =>
    by_cases hstart : s.status.busy = false ∧ a.toNat = 0x0000
    · obtain ⟨hb, ha⟩ := hstart
      obtain ⟨-, rfl⟩ := startOperation_next ((hostWrite_cmd hb v ha).symm.trans h)
      simp [hb, show a = 0x0000#14 from BitVec.eq_of_toNat_eq ha]
    · rw [hostWrite_status h hstart]
      refine ⟨nofun, fun hb ⟨w, hw⟩ => ?_, fun _ => nofun, fun _ _ _ => rfl⟩
      cases hw
      exact absurd ⟨hb, rfl⟩ hstart

/-- Only a read, and reset, moves the pin `h_rdata` within a cycle. -/
theorem transition_hRdata {e : PortEvent} {s t : State} (h : transition e s = .next t)
    (he : ∀ a, e ≠ .read a) (h0 : s.hRdata = 0) : t.hRdata = 0 := by
  cases e with
  | idle => cases h; exact h0
  | read a => exact absurd rfl (he a)
  | reset => cases h; rfl
  | engine =>
    rcases engineTurn_next h with ⟨-, rfl⟩ | ⟨-, r, rfl⟩
    · exact h0
    · rwa [State.complete_hRdata]
  | write a v =>
    rcases hostWrite_next h with rfl | ⟨-, ⟨-, -, rfl⟩ | rfl | ⟨i, -, rfl⟩⟩ <;> exact h0

/-- Settles O58: the pins are bits of the word, and a cycle begins with `h_rdata` at 0. -/
theorem outputPins : Obligations.OutputPins := by
  refine fun s t => ⟨s.status.getLsbD_word_low.1.symm, s.status.getLsbD_word_low.2.1.symm,
    fun h hread => ?_⟩
  obtain ⟨e, rest, hstep, hsched⟩ := step_eq s
  refine transition_hRdata (hstep.symm.trans h) (fun a ha => ?_) rfl
  subst ha
  rcases hsched with hsched | ⟨-, he, -⟩
  · exact hread a rest hsched
  · cases he

/-! ### The engine's step in a run (R41, R76) -/

theorem step_engine {s : State} {rest : List PortEvent} (hb : s.status.busy = true)
    (h : s.schedule = .engine :: rest ∨ (s.schedule = [] ∧ rest = [])) :
    step s = engineStep (beginCycle s rest) := by
  refine Eq.trans ?_ (engineTurn_of_busy hb)
  rcases h with h | ⟨h, rfl⟩
  · exact step_of_schedule s _ _ h
  · simp only [step, h]
    rfl

/-- Settles O47: the engine's turn decodes `CMD` and runs what it finds there. -/
theorem stepRunsTheDecodedOperation : Obligations.StepRunsTheDecodedOperation :=
  fun s _ rest hb hi hs =>
    (step_engine hb hs).trans (engineStep_of_instr (s := beginCycle s rest) hi)

/-- The byte that `withFetchWord` places, and that the table decodes, is the word's bits 7:0. -/
theorem ofNat_mod_byte (w : Nat) : BitVec.ofNat 8 (w % 2 ^ 8) = BitVec.ofNat 8 w := by
  refine BitVec.eq_of_toNat_eq ?_
  simp

theorem decodeByte_of_decodeTableWord {w : Nat} {i : Instr} (h : decodeTableWord 8 w = some i) :
    decodeByte (BitVec.ofNat 8 w) = .instr i := by
  rw [← ofNat_mod_byte]
  unfold decodeTableWord at h
  split at h
  · cases h; assumption
  · cases h

theorem State.withFetchWord_eq (s : State) (w : Nat) :
    s.withFetchWord 8 w =
      { s.start (BitVec.ofNat 8 w) with schedule := (s.withFetchWord 8 w).schedule } := by
  rw [← ofNat_mod_byte]
  unfold State.withFetchWord
  dsimp only
  split <;> rfl

/-- The engine moves next, and then comes what was scheduled before. -/
theorem State.withFetchWord_schedule (s : State) (w : Nat) :
    (s.withFetchWord 8 w).schedule = .engine :: s.schedule ∨
    ((s.withFetchWord 8 w).schedule = [] ∧ s.schedule = []) := by
  cases h : s.schedule <;> simp [State.withFetchWord, h]

/-- Settles O48: the placed command is in `CMD` and the engine moves next. -/
theorem fetchedWordRunsNext : Obligations.FetchedWordRunsNext := by
  intro s w i h
  have hw := s.withFetchWord_eq w
  have hb : (s.withFetchWord 8 w).status.busy = true := by rw [hw]; rfl
  have hi : decodeByte (s.withFetchWord 8 w).cmd = .instr i := by
    rw [hw]; exact decodeByte_of_decodeTableWord h
  have hstep := stepRunsTheDecodedOperation _ i s.schedule hb hi (s.withFetchWord_schedule w)
  rw [hstep, hw]
  rfl

/-! ### The invariant of a run (R27 to R30, R171) -/

/-- The pin, the events to come and the count of draws stand outside the invariant. -/
theorem State.Inv.with_pins {s : State} (h : s.Inv) (v : Data) (events : List PortEvent) (n : Nat) :
    State.Inv { s with hRdata := v, schedule := events, draws := n } :=
  ⟨{ h.status with }, { h.buffers with }, { h.result with }, h.input⟩

theorem State.Inv.beginCycle {s : State} (h : s.Inv) (rest : List PortEvent) :
    (Machine.beginCycle s rest).Inv := h.with_pins 0 rest s.draws

theorem State.Inv.hostRead {s : State} (h : s.Inv) (a : Addr) : (Machine.hostRead a s).Inv := by
  rw [hostRead_frame]
  exact h.with_pins _ s.schedule _

theorem State.inv_resetOf (cfg : Config) : (State.resetOf cfg).Inv where
  status := ⟨nofun, nofun, fun h => absurd rfl h, nofun, nofun, fun _ => rfl⟩
  buffers := ⟨rfl, rfl, rfl, rfl⟩
  result := ⟨nofun, nofun, nofun⟩
  input := nofun

theorem State.inv_resetNow (s : State) : s.resetNow.Inv :=
  (State.inv_resetOf s.cfg).with_pins 0 s.schedule s.draws

/-- Settles O54: the state after reset meets the invariant, and the events to come do not matter to
it. -/
theorem resetMeetsInvariant : Obligations.ResetMeetsInvariant :=
  fun cfg events => (State.inv_resetOf cfg).with_pins 0 events 0

/-- The start of an operation on defined input. -/
theorem State.Inv.start {s : State} (h : s.Inv) {c : Byte} (hc : ¬s.readsUndefined c) :
    (s.start c).Inv where
  status := ⟨nofun, nofun, fun h => absurd rfl h, nofun, fun _ => ⟨rfl, rfl, rfl⟩, fun _ => rfl⟩
  buffers := { h.buffers with }
  result := ⟨nofun, nofun, nofun⟩
  input _ := hc

section
variable {s : State} (h : s.Inv) (hb : s.status.busy = false)
include h hb

/-- While nothing is in progress any `IN_LEN` will do. -/
theorem State.Inv.with_inLen (v : Data) : State.Inv { s with inLen := v } :=
  ⟨{ h.status with }, { h.buffers with }, { h.result with }, fun hbusy => by simp [hb] at hbusy⟩

theorem State.Inv.with_ibuf {m : Memory} (hwf : m.wf = true)
    (hin : m.within s.cfg.inCap = true) : State.Inv { s with ibuf := m } :=
  ⟨{ h.status with }, { h.buffers with ibuf_wf := hwf, ibuf_within := hin }, { h.result with },
    fun hbusy => by simp [hb] at hbusy⟩

end

theorem State.Inv.hostWrite {s t : State} (h : s.Inv) {a : Addr} {v : Data}
    (hx : Machine.hostWrite a v s = .next t) : t.Inv := by
  rcases hostWrite_next hx with rfl | ⟨hb, ⟨-, hc, rfl⟩ | rfl | ⟨i, hi, rfl⟩⟩
  · exact h
  · exact h.start hc
  · exact h.with_inLen hb v
  · exact h.with_ibuf hb (Memory.writeByte_wf _ _ _ h.buffers.ibuf_wf)
      (Memory.writeByte_within _ _ _ _ hi h.buffers.ibuf_within)

/-! A completion: `STATUS`, the buffers and the result, each from what the result is. -/

theorem State.statusInv_complete (s : State) (r : OpResult) : (s.complete r).StatusInv := by
  cases r with
  | ok len out => exact ⟨nofun, fun _ => ⟨rfl, rfl⟩, fun h => absurd rfl h,
      fun _ => iff_of_true rfl rfl, nofun, nofun⟩
  | fail kind n => exact ⟨nofun, nofun, fun _ => ⟨rfl, rfl⟩,
      fun _ => iff_of_false nofun nofun, nofun, fun _ => rfl⟩

/-- What a success writes fits `OBUF` (R57, R59); a failure writes nothing. -/
def OpResult.FitsOutput (outCap : Nat) : OpResult → Prop
  | .ok _ out => out.length ≤ outCap
  | .fail _ _ => True

theorem OpResult.AgreesWith.fitsOutput {i : Instr} {outCap : Nat} {r : OpResult}
    (h : r.AgreesWith i outCap) : r.FitsOutput outCap := by
  cases r with
  | ok len out => exact h.1
  | fail kind n => exact trivial

theorem State.BufferInv.complete {s : State} (h : s.BufferInv) {r : OpResult}
    (hr : r.FitsOutput s.cfg.outCap) : (s.complete r).BufferInv := by
  cases r with
  | ok len out =>
    exact { h with
      obuf_wf := Memory.writeRun_wf _ _ _ h.obuf_wf
      obuf_within := Memory.writeRun_within _ _ _ _ (by rw [Nat.zero_add]; exact hr) h.obuf_within }
  | fail kind n =>
    exact { h with
      obuf_wf := Memory.undefineBelow_wf _ _ h.obuf_wf
      obuf_within := Memory.undefineBelow_within _ _ _ h.obuf_within }

/-- A success that fills the output it reports leaves it within `OBUF` and defined (R57). -/
theorem State.complete_ok_output {s : State} {len : Nat} {out : List Byte}
    (hcap : out.length ≤ s.cfg.outCap) (hlen : out.length = len) :
    (s.complete (.ok len out)).outLen.toNat ≤ s.cfg.outCap ∧
    ∀ k < (s.complete (.ok len out)).outLen.toNat,
      ((s.complete (.ok len out)).obuf.readByte k).isSome = true := by
  have hmax := s.cfg.outCap_max
  have hout : (s.complete (.ok len out)).outLen.toNat = out.length := by
    rw [complete_ok_outLen, BitVec.toNat_ofNat, hlen, Nat.mod_eq_of_lt (by omega)]
  refine ⟨hout ▸ hcap, fun k hk => ?_⟩
  rw [s.readByte_complete_ok hlen hk]
  simpa using hout ▸ hk

/-- A completion of the operation in `CMD` with a result that agrees with it. -/
theorem State.resultInv_complete {s : State} {i : Instr} {r : OpResult}
    (hi : decodeByte s.cmd = .instr i) (hr : r.AgreesWith i s.cfg.outCap) :
    (s.complete r).ResultInv where
  reserved why _ hw := by
    rw [complete_cmd] at hw
    cases hi.symm.trans hw
  kind j k _ hj hk := by
    rw [complete_cmd] at hj
    cases hi.symm.trans hj
    cases r with
    | ok len out => cases hk
    | fail kind n => cases hk; exact hr
  result j hok hj hwrites := by
    rw [complete_cmd] at hj
    cases hi.symm.trans hj
    cases r with
    | ok len out => exact complete_ok_output hr.1 (hr.2 hwrites)
    | fail kind n => cases hok

theorem State.resultInv_completeIllegal {s : State} {why : Reject}
    (hw : decodeByte s.cmd = .rejected why) : s.completeIllegal.ResultInv where
  reserved _ _ _ := rfl
  kind i _ _ hi := by cases hw.symm.trans hi
  result _ := nofun

theorem State.Inv.engineStep {s t : State} (h : s.Inv) (hx : Machine.engineStep s = .next t) :
    t.Inv := by
  rcases engineStep_next hx with ⟨i, r, hi, rfl, hr⟩ | ⟨why, hw, rfl⟩
  · exact ⟨s.statusInv_complete r, h.buffers.complete hr.fitsOutput, resultInv_complete hi hr,
      by simp⟩
  · exact ⟨s.statusInv_complete _, h.buffers.complete trivial, resultInv_completeIllegal hw,
      by simp⟩

theorem State.Inv.engineTurn {s t : State} (h : s.Inv) (hx : Machine.engineTurn s = .next t) :
    t.Inv := by
  cases hb : s.status.busy with
  | false => cases (engineTurn_of_not_busy hb).symm.trans hx; exact h
  | true => exact h.engineStep ((engineTurn_of_busy hb).symm.trans hx)

/-- Every transition of the port keeps the invariant. -/
theorem State.Inv.transition {s t : State} (h : s.Inv) {e : PortEvent}
    (hx : Machine.transition e s = .next t) : t.Inv := by
  cases e with
  | idle => cases hx; exact h
  | read a => cases hx; exact h.hostRead a
  | write a v => exact h.hostWrite hx
  | engine => exact h.engineTurn hx
  | reset => cases hx; exact s.inv_resetNow

/-- Settles O55: a step is one transition from the state as its cycle begins. -/
theorem stepKeepsInvariant : Obligations.StepKeepsInvariant := by
  intro s t h hx
  obtain ⟨e, rest, hstep, -⟩ := step_eq s
  exact (h.beginCycle rest).transition (hstep.symm.trans hx)

theorem Reachable.inv {s : State} (h : Reachable s) : s.Inv := by
  induction h with
  | reset cfg events => exact resetMeetsInvariant cfg events
  | step s t _ hx ih => exact stepKeepsInvariant s t ih hx

/-- The conditions of R27 leave `STATUS` the three values of its states, one of them with five
kinds. -/
theorem State.StatusInv.status_cases {s : State} (h : s.StatusInv) :
    s.status = Status.idle ∨ s.status = Status.running ∨ s.status = Status.succeeded ∨
    ∃ k, s.status = Status.failed k := by
  obtain ⟨hboth, hok, herr, hdone, -, -⟩ := h
  rcases hst : s.status with ⟨busy, done, ok, err⟩
  rw [hst] at hboth hok herr hdone
  cases done with
  | false =>
    obtain rfl : ok = false := by simpa using hok
    obtain rfl : err = none := by simpa using herr
    cases busy with
    | false => exact .inl rfl
    | true => exact .inr (.inl rfl)
  | true =>
    obtain rfl : busy = false := by simpa using hboth
    cases err with
    | none =>
      obtain rfl : ok = true := by simpa using hdone
      exact .inr (.inr (.inl rfl))
    | some kind =>
      obtain rfl : ok = false := by simpa using hdone
      exact .inr (.inr (.inr ⟨kind, rfl⟩))

/-- The eight values of R27. -/
theorem State.StatusInv.word_mem {s : State} (h : s.StatusInv) :
    s.status.word ∈ ([0x00, 0x01, 0x06, 0x12, 0x22, 0x32, 0x42, 0x52] : List Data) := by
  rcases h.status_cases with hs | hs | hs | ⟨k, hs⟩ <;> rw [hs]
  · decide
  · decide
  · decide
  · cases k <;> decide

/-- Settles O56: the invariant holds in every reachable state. -/
theorem reachableStatusValues : Obligations.ReachableStatusValues := by
  intro s hs
  have h := hs.inv.status
  refine ⟨h.not_both, h.ok_done, h.err_done, fun hd => ?_, h.busy_clear, h.not_ok_zero, h.word_mem⟩
  have hiff := h.done_result hd
  cases hok : s.status.ok with
  | true => exact .inl ⟨rfl, hiff.mp hok⟩
  | false => exact .inr ⟨rfl, fun hn => by simp [hiff.mpr hn] at hok⟩

end Sys2Proof.Machine

/-! PROOFS. What an operation leaves of the state and of `OBUF` (R57, R177), what host accesses
leave of an operation in progress and of its results (R58, R60, R204, R206), and the bounds of both
buffers in every reachable state (R59). -/

namespace Sys2Proof.Machine

/-! ### The frame of an operation (R41, R57) -/

/-- Settles O37: an operation that answers has completed, and a completion writes `STATUS`,
`OUT_LEN` and `OBUF` alone. -/
theorem operationFrame : Obligations.OperationFrame := by
  intro i s t h
  obtain ⟨r, rfl⟩ := exec_next_is_completion i s t h
  exact ⟨s.complete_cmd r, s.complete_inLen r, s.complete_ibuf r, s.complete_cfg r,
    s.complete_hRdata r, s.complete_schedule r, s.complete_draws r,
    fun k => congrArg (Memory.readByte · k) (s.complete_ibuf r)⟩

/-! ### How far into `OBUF` a completion reaches (R57, R177) -/

/-- How many entries of `OBUF`, from index 0, a completion may touch: a success writes them, a
failure makes them undefined. -/
def OpResult.reach : OpResult → Nat
  | .ok _ out => out.length
  | .fail _ spoiled => spoiled

theorem State.readByte_complete_of_reach_le (s : State) {r : OpResult} {k : Nat} (h : r.reach ≤ k) :
    (s.complete r).obuf.readByte k = s.obuf.readByte k := by
  cases r with
  | ok len out =>
    have hlen : out.length ≤ k := h
    rw [complete_ok_obuf, Memory.readByte_writeRun, if_neg (by omega)]
  | fail kind spoiled =>
    have hspoiled : spoiled ≤ k := h
    rw [complete_fail_obuf, Memory.readByte_undefineBelow, if_neg (Nat.not_lt.mpr hspoiled)]

section
variable {a : Alphabet} {p : Bool} {s t : State} {k : Nat}

/-- What an encode writes is as long as R110 says, and a failed one touches nothing. -/
theorem encOp_obuf_frame (h : encOp a p s = .next t)
    (hk : encodedLength s.inCount p ≤ k ∨ t.status.ok = false) :
    t.obuf.readByte k = s.obuf.readByte k := by
  rcases encOp_cases a p s with ⟨-, hx⟩ | ⟨-, -, ⟨-, hx⟩ | ⟨bs, hbs, hx⟩⟩ <;>
    cases hx.symm.trans h
  · exact s.readByte_complete_of_reach_le (Nat.zero_le k)
  · have hlen : (encodeSeq a p bs).length = encodedLength s.inCount p := by
      rw [encodeSeq_length, length_of_readInput hbs]
    rcases hk with hk | hfail
    · exact s.readByte_complete_of_reach_le (hlen.trans_le hk)
    · cases hfail

theorem spoiledBy_le (kind : FailKind) (m : Nat) (p : Bool) :
    spoiledBy kind m p ≤ decodedLength m p := by
  cases kind with
  | invalidSymbol => exact Nat.le_refl _
  | misplacedPadding => exact Nat.le_refl _
  | malformedInput => exact Nat.zero_le _
  | illegalCmd => exact Nat.zero_le _
  | range => exact Nat.zero_le _

/-- What the decoded sequence leads to stays below the bound of R111, below `OUT_LEN` on success,
and touches nothing with a kind that is decided before any buffer access (R177). -/
theorem decodeOutcome_reach_le {m : Nat} {d : DecodeResult} (hd : d.Within (decodedLength m p))
    (hcap : decodedLength m p ≤ s.cfg.outCap) (ht : t = s.complete (decodeOutcome m p d))
    (hk : decodedLength m p ≤ k ∨ (t.status.ok = true ∧ t.outLen.toNat ≤ k) ∨
      t.status.err = some .malformedInput ∨ t.status.err = some .range) :
    (decodeOutcome m p d).reach ≤ k := by
  subst ht
  cases d with
  | bytes out =>
    rcases hk with hk | ⟨-, hk⟩ | herr | herr
    · exact Nat.le_trans hd hk
    · have hmax := s.cfg.outCap_max
      have hlen : out.length ≤ decodedLength m p := hd
      have hout : (BitVec.ofNat 32 out.length).toNat = out.length := by
        rw [BitVec.toNat_ofNat, Nat.mod_eq_of_lt (by omega)]
      exact hout.symm.trans_le hk
    · cases herr
    · cases herr
  | err kind =>
    rcases hk with hk | ⟨hok, -⟩ | herr | herr
    · exact Nat.le_trans (spoiledBy_le kind m p) hk
    · cases hok
    · cases herr; exact Nat.zero_le k
    · cases herr; exact Nat.zero_le k

theorem decOp_obuf_frame (h : decOp a p s = .next t)
    (hk : decodedLength s.inCount p ≤ k ∨ (t.status.ok = true ∧ t.outLen.toNat ≤ k) ∨
      t.status.err = some .malformedInput ∨ t.status.err = some .range) :
    t.obuf.readByte k = s.obuf.readByte k := by
  rcases decOp_cases a p s with
    ⟨-, hx⟩ | ⟨-, hcap, ⟨-, hx⟩ | ⟨hlen, ⟨-, hx⟩ | ⟨ss, hss, hx⟩⟩⟩ <;>
    cases hx.symm.trans h
  · exact s.readByte_complete_of_reach_le (Nat.zero_le k)
  · exact s.readByte_complete_of_reach_le (Nat.zero_le k)
  · have hd : (decodeSeq a p ss).Within (decodedLength s.inCount p) := by
      rw [← length_of_readInput hss] at hlen ⊢
      exact decodeSeq_within hlen
    exact s.readByte_complete_of_reach_le (decodeOutcome_reach_le hd hcap rfl hk)

theorem encLenOp_obuf_frame (h : encLenOp p s = .next t) :
    t.obuf.readByte k = s.obuf.readByte k := by
  rcases encLenOp_cases p s with ⟨-, hx⟩ | ⟨-, hx⟩ <;> cases hx.symm.trans h
  · exact s.readByte_complete_of_reach_le (Nat.zero_le k)
  · exact s.readByte_complete_of_reach_le (Nat.zero_le k)

theorem decLenOp_obuf_frame (h : decLenOp p s = .next t) :
    t.obuf.readByte k = s.obuf.readByte k := by
  cases h
  exact s.readByte_complete_of_reach_le (Nat.zero_le k)

end

/-- Settles O38, one frame for each of the four shells. -/
theorem outputBufferFrame : Obligations.OutputBufferFrame := by
  refine ⟨fun f hf s t h k hk => ?_, fun f hf s t h k hk => ?_, fun f hf s t h k => ?_⟩
  · exact encOp_obuf_frame ((exec_encForm f hf s).symm.trans h) hk
  · exact decOp_obuf_frame ((exec_decForm f hf s).symm.trans h) hk
  · rcases List.mem_append.mp hf with hf | hf
    · exact encLenOp_obuf_frame ((exec_encLenForm f hf s).symm.trans h)
    · exact decLenOp_obuf_frame ((exec_decLenForm f hf s).symm.trans h)

/-! ### Host accesses (R30, R58, R180) -/

/-- A read draws a free byte exactly where the location holds no value. -/
theorem hostRead_draws (a : Addr) (s : State) :
    (hostRead a s).draws =
      if (readLocation s (locationOf s.cfg a)).isSome then s.draws else s.draws + 1 := by
  cases h : readLocation s (locationOf s.cfg a) <;> simp [hostRead, h]

/-- The one write that does not answer is the start of an operation on undefined input. -/
theorem hostWrite_answers_iff (a : Addr) (v : Data) (s : State) :
    (∃ t, hostWrite a v s = .next t) ↔
      ¬(a.toNat = 0 ∧ s.status.busy = false ∧ s.readsUndefined (v.extractLsb' 0 8)) := by
  constructor
  · rintro ⟨t, h⟩ ⟨ha, hb, hu⟩
    exact (startOperation_next ((hostWrite_cmd hb v ha).symm.trans h)).1 hu
  · intro hok
    rcases hostWrite_cases a v s with hx | ⟨hb, ⟨ha, hx⟩ | ⟨-, hx⟩ | ⟨i, -, -, hx⟩⟩
    · exact ⟨_, hx⟩
    · exact ⟨_, hx.trans (startOperation_of_defined fun hu => hok ⟨ha, hb, hu⟩)⟩
    · exact ⟨_, hx⟩
    · exact ⟨_, hx⟩

theorem hostRead_hRdata_of_ibuf {a : Addr} {s : State} {i : Nat} {b : Byte}
    (hi : i < s.cfg.inCap) (ha : a.toNat = 0x1000 + i) (hb : s.ibuf.readByte i = some b) :
    (hostRead a s).hRdata = b.setWidth 32 :=
  (hostRead_hRdata_of_entry (by rw [locationOf_ibuf _ a i hi ha]; rfl)).1 b hb

/-- Settles O46, the read and the write each from its own rule of the port. -/
theorem hostAccessesNeverFail : Obligations.HostAccessesNeverFail := by
  refine fun a s => ⟨rfl, hostRead_status a s, hostRead_draws a s, fun v =>
    ⟨hostWrite_answers_iff a v s, fun t h => ⟨fun h0 => ?_, fun i hi ha hb => ?_⟩⟩⟩
  · exact hostWrite_status h fun hstart => h0 hstart.2
  · cases (hostWrite_ibuf hb v hi ha).symm.trans h
    refine hostRead_hRdata_of_ibuf hi ha ?_
    rw [Memory.readByte_writeByte, if_pos rfl]

/-! ### Accesses while an operation is in progress (R60, R204) -/

/-- While busy, an event that neither completes nor resets moves the pin and the count of draws
alone. -/
theorem transition_of_busy {e : PortEvent} {s : State} (hb : s.status.busy = true)
    (he : e ≠ .engine ∧ e ≠ .reset) :
    ∃ v n, transition e s = .next { s with hRdata := v, draws := n } := by
  cases e with
  | idle => exact ⟨s.hRdata, s.draws, rfl⟩
  | read a => exact ⟨_, _, congrArg Host.Outcome.next (hostRead_frame a s)⟩
  | write a v => exact ⟨s.hRdata, s.draws, hostWrite_busy a v s hb⟩
  | engine => exact absurd rfl he.1
  | reset => exact absurd rfl he.2

theorem runSteps_of_busy (events rest : List PortEvent) (s : State) (hb : s.status.busy = true)
    (he : ∀ e ∈ events, e ≠ .engine ∧ e ≠ .reset) (hs : s.schedule = events ++ rest) :
    ∃ v n, runSteps events.length s =
      .next { s with schedule := rest, hRdata := v, draws := n } := by
  induction events generalizing s with
  | nil => exact ⟨s.hRdata, s.draws, by subst hs; rfl⟩
  | cons e events ih =>
    obtain ⟨v, n, hx⟩ := transition_of_busy (s := beginCycle s (events ++ rest)) hb
      (he e List.mem_cons_self)
    obtain ⟨v', n', hrun⟩ := ih { beginCycle s (events ++ rest) with hRdata := v, draws := n } hb
      (fun e' h => he e' (List.mem_cons_of_mem _ h)) rfl
    exact ⟨v', n', (runSteps_succ _ s _ ((step_of_schedule s e _ hs).trans hx)).trans hrun⟩

/-- Settles O51, by induction on the events: each is inert and leaves the block busy. -/
theorem accessesWhileBusyAreInert : Obligations.AccessesWhileBusyAreInert := by
  intro events rest s hb he hs
  obtain ⟨v, n, hrun⟩ := runSteps_of_busy events rest s hb he hs
  exact ⟨_, hrun, rfl⟩

/-! ### Results between operations (R60, R179, R206) -/

/-- Settles O52, event by event: while not busy the engine does nothing, and a write other than that
of `CMD` reaches `IN_LEN` or `IBUF` at most. -/
theorem resultsPersistUntilNextStart : Obligations.ResultsPersistUntilNextStart := by
  intro e s t hb hreset hcmd h
  cases e with
  | idle => cases h; exact ⟨rfl, rfl, rfl, rfl⟩
  | read a =>
    cases h
    exact ⟨hostRead_status a s, hostRead_outLen a s, hostRead_obuf a s, hostRead_cmd a s⟩
  | write a v =>
    rcases hostWrite_next h with rfl | ⟨-, ⟨ha, -⟩ | rfl | ⟨i, -, rfl⟩⟩
    · exact ⟨rfl, rfl, rfl, rfl⟩
    · exact absurd (congrArg (PortEvent.write · v) (BitVec.eq_of_toNat_eq ha)) (hcmd v)
    · exact ⟨rfl, rfl, rfl, rfl⟩
    · exact ⟨rfl, rfl, rfl, rfl⟩
  | engine => cases (engineTurn_of_not_busy hb).symm.trans h; exact ⟨rfl, rfl, rfl, rfl⟩
  | reset => exact absurd rfl hreset

/-! ### Buffers of reachable states (R28, R29, R59) -/

theorem Memory.mem_of_readByte_eq_some {m : Memory} {i : Nat} {b : Byte}
    (h : m.readByte i = some b) : (i, b) ∈ m := by
  induction m with
  | nil => cases h
  | cons c m ih =>
    rw [readByte_cons] at h
    split at h
    · next hc => cases h; cases hc; exact List.mem_cons_self
    · exact List.mem_cons_of_mem _ (ih h)

theorem Memory.readByte_eq_none_of_within {m : Memory} {cap k : Nat} (h : m.within cap = true)
    (hk : cap ≤ k) : m.readByte k = none := by
  refine Option.eq_none_iff_forall_ne_some.mpr fun b hb => ?_
  exact Nat.not_lt.mpr hk ((within_iff m cap).mp h _ (mem_of_readByte_eq_some hb))

/-- Settles O57: the parts of the invariant that speak of the buffers and of the result. -/
theorem reachableBuffersWithinCapacity : Obligations.ReachableBuffersWithinCapacity := by
  intro s hs
  obtain ⟨-, hbuf, hres, -⟩ := hs.inv
  exact ⟨hbuf.ibuf_wf, hbuf.obuf_wf, fun _ => Memory.readByte_eq_none_of_within hbuf.ibuf_within,
    fun _ => Memory.readByte_eq_none_of_within hbuf.obuf_within, hres.result⟩

end Sys2Proof.Machine

/-! PROOFS. The command byte (R70 to R77): its fields, what the decoder answers on them, and the engine's
step field by field. `instrOf_cases` says once what the fields of a command select; the agreement of
decoder and encoder, the reserved bytes and the order of checks of R76 each follow from it. -/

namespace Sys2Proof

/-! ### The fields of a command byte (R70) -/

theorem opOfBits_bitsOfOp (op : Op) : opOfBits (bitsOfOp op) = op := by cases op <;> rfl

theorem bitsOfOp_opOfBits : ∀ b : BitVec 2, bitsOfOp (opOfBits b) = b := by decide

theorem isLength_opOfBits : ∀ b : BitVec 2, (opOfBits b).isLength = true ↔ b ≠ 0 ∧ b ≠ 1 := by
  decide

theorem joinCommand_splitCommand (b : Byte) : joinCommand (splitCommand b) = b := by
  simp only [joinCommand, splitCommand, bitsOfOp_opOfBits]
  refine BitVec.eq_of_getLsbD_eq fun i hi => ?_
  simp only [BitVec.getLsbD_append, BitVec.getLsbD_extractLsb', BitVec.getLsbD_ofBool]
  rcases Machine.bit_cases_eight hi with rfl | rfl | rfl | rfl | rfl | rfl | rfl | rfl <;> simp

section
variable (c : Command)

theorem joinCommand_rsv : (joinCommand c).extractLsb' 4 4 = c.rsv := by
  refine BitVec.eq_of_getLsbD_eq fun i hi => ?_
  simp only [joinCommand, BitVec.getLsbD_extractLsb', BitVec.getLsbD_append]
  interval_cases i <;> simp

theorem joinCommand_pad : (joinCommand c).getLsbD 3 = c.pad := by
  simp only [joinCommand, BitVec.getLsbD_append]
  simp

theorem joinCommand_url : (joinCommand c).getLsbD 2 = c.url := by
  simp only [joinCommand, BitVec.getLsbD_append]
  simp

theorem joinCommand_op : (joinCommand c).extractLsb' 0 2 = bitsOfOp c.op := by
  refine BitVec.eq_of_getLsbD_eq fun i hi => ?_
  simp only [joinCommand, BitVec.getLsbD_extractLsb', BitVec.getLsbD_append]
  simp [hi]

theorem splitCommand_joinCommand : splitCommand (joinCommand c) = c := by
  simp only [splitCommand, joinCommand_rsv, joinCommand_pad, joinCommand_url, joinCommand_op,
    opOfBits_bitsOfOp]

end

/-! ### What the fields select (R72, R73, R76) -/

theorem Command.wf_iff (c : Command) :
    c.wf = true ↔ c.rsv = 0 ∧ ¬(c.url = true ∧ c.op.isLength = true) := by
  simp [wf, rsvOk, urlOk, or_iff_not_imp_left]

theorem instrOf_commandOf (i : Instr) : instrOf (commandOf i) = .instr i := by cases i <;> rfl

theorem commandOf_wf (i : Instr) : (commandOf i).wf = true := by cases i <;> rfl

/-- All that fields can select: nothing, if `RSV` is not 0 or `URL` is set with a length operation, and
else the operation that has these fields. -/
theorem instrOf_cases (c : Command) :
    (c.rsv ≠ 0 ∧ instrOf c = .rejected .reservedBits) ∨
    (c.rsv = 0 ∧ c.url = true ∧ c.op.isLength = true ∧ instrOf c = .rejected .urlOnLength) ∨
    ∃ i, instrOf c = .instr i ∧ commandOf i = c := by
  obtain ⟨rsv, pad, url, op⟩ := c
  by_cases hrsv : rsv = 0
  · subst hrsv
    cases op with
    | enc => cases url <;> cases pad <;> exact .inr (.inr ⟨_, rfl, rfl⟩)
    | dec => cases url <;> cases pad <;> exact .inr (.inr ⟨_, rfl, rfl⟩)
    | encLen =>
      cases url with
      | false => cases pad <;> exact .inr (.inr ⟨_, rfl, rfl⟩)
      | true => exact .inr (.inl ⟨rfl, rfl, rfl, rfl⟩)
    | decLen =>
      cases url with
      | false => cases pad <;> exact .inr (.inr ⟨_, rfl, rfl⟩)
      | true => exact .inr (.inl ⟨rfl, rfl, rfl, rfl⟩)
  · exact .inl ⟨hrsv, if_pos hrsv⟩

theorem commandOf_of_instrOf {c : Command} {i : Instr} (h : instrOf c = .instr i) :
    commandOf i = c := by
  rcases instrOf_cases c with ⟨-, hx⟩ | ⟨-, -, -, hx⟩ | ⟨j, hx, hc⟩
  · cases hx.symm.trans h
  · cases hx.symm.trans h
  · cases hx.symm.trans h
    exact hc

theorem wf_iff_exists_commandOf (c : Command) : c.wf = true ↔ ∃ i, commandOf i = c := by
  constructor
  · intro h
    rcases instrOf_cases c with ⟨hrsv, -⟩ | ⟨-, hurl, hlen, -⟩ | ⟨i, -, hc⟩
    · exact absurd (c.wf_iff.mp h).1 hrsv
    · exact absurd ⟨hurl, hlen⟩ (c.wf_iff.mp h).2
    · exact ⟨i, hc⟩
  · rintro ⟨i, rfl⟩
    exact commandOf_wf i

/-! ### Decoding a command byte (R72, R74, R77) -/

theorem decodeByte_encodeByte (i : Instr) : decodeByte (encodeByte i) = .instr i := by
  rw [decodeByte, encodeByte, splitCommand_joinCommand, instrOf_commandOf]

theorem decodeByte_eq_instr_iff (b : Byte) (i : Instr) :
    decodeByte b = .instr i ↔ b = encodeByte i := by
  constructor
  · intro h
    rw [encodeByte, commandOf_of_instrOf h, joinCommand_splitCommand]
  · rintro rfl
    exact decodeByte_encodeByte i

/-- Settles O3: the two are inverse on the fields, and `instrOf` and `commandOf` are on the
operations. -/
theorem decodeEncodeAgree : Obligations.DecodeEncodeAgree :=
  ⟨fun i rest => congrArg (·, rest) (decodeByte_encodeByte i), decodeByte_eq_instr_iff,
    joinCommand_splitCommand, splitCommand_joinCommand, wf_iff_exists_commandOf⟩

/-- Settles O1: each byte of the table is, by evaluation, the encoding of its row's operation. -/
theorem commandBytesDecodeByTable : Obligations.CommandBytesDecodeByTable :=
  ⟨decodeByte_encodeByte .encStdNopad, decodeByte_encodeByte .decStdNopad,
    decodeByte_encodeByte .encLenNopad, decodeByte_encodeByte .decLenNopad,
    decodeByte_encodeByte .encUrlNopad, decodeByte_encodeByte .decUrlNopad,
    decodeByte_encodeByte .encStdPad, decodeByte_encodeByte .decStdPad,
    decodeByte_encodeByte .encLenPad, decodeByte_encodeByte .decLenPad,
    decodeByte_encodeByte .encUrlPad, decodeByte_encodeByte .decUrlPad⟩

/-- A byte is rejected when its fields are not those of an operation (R73). -/
theorem decodeByte_rejected_iff_not_wf (b : Byte) :
    (∃ why, decodeByte b = .rejected why) ↔ (splitCommand b).wf = false := by
  cases h : decodeByte b with
  | instr i => simp [← commandOf_of_instrOf h, commandOf_wf]
  | rejected why =>
    refine iff_of_true ⟨why, rfl⟩ (Bool.eq_false_iff.mpr fun hwf => ?_)
    obtain ⟨i, hc⟩ := (wf_iff_exists_commandOf _).mp hwf
    have hi : decodeByte b = .instr i := by rw [decodeByte, ← hc, instrOf_commandOf]
    cases hi.symm.trans h

/-- The ill-formed fields, as numbers (R73, R74). -/
theorem splitCommand_not_wf_iff : ∀ b : Byte, (splitCommand b).wf = false ↔
    b = 0x06 ∨ b = 0x07 ∨ b = 0x0E ∨ b = 0x0F ∨ 0x10 ≤ b.toNat := by decide

/-- Settles O2: the bytes with ill-formed fields are the 244 of R74. -/
theorem reservedBytesAreExactlyRejected : Obligations.ReservedBytesAreExactlyRejected :=
  fun b => (decodeByte_rejected_iff_not_wf b).trans (splitCommand_not_wf_iff b)

/-- The two reasons to reject a byte, as R76 tests them. -/
theorem bits_of_decodeByte_rejected {b : Byte} {why : Reject} (h : decodeByte b = .rejected why) :
    b.extractLsb' 4 4 ≠ 0 ∨
    (b.extractLsb' 4 4 = 0 ∧ b.extractLsb' 0 2 ≠ 0 ∧ b.extractLsb' 0 2 ≠ 1 ∧
      b.getLsbD 2 = true) := by
  rcases instrOf_cases (splitCommand b) with ⟨hrsv, -⟩ | ⟨hrsv, hurl, hlen, -⟩ | ⟨i, hx, -⟩
  · exact .inl hrsv
  · obtain ⟨h0, h1⟩ := (isLength_opOfBits _).mp hlen
    exact .inr ⟨hrsv, h0, h1, hurl⟩
  · cases hx.symm.trans h

end Sys2Proof

namespace Sys2Proof.Machine

/-! ### The engine's step, field by field (R76) -/

/-- Settles O50: a rejected byte fails one of the two tests that lead to `ILLEGAL_CMD`, and any other is
the byte of an operation, which is run with its own fields. -/
theorem engineFollowsExecute : Obligations.EngineFollowsExecute := by
  intro s
  rcases engineStep_cases s with ⟨i, hi, he⟩ | ⟨why, hw, he⟩
  · rw [he, (decodeByte_eq_instr_iff _ _).mp hi]
    cases i <;> rfl
  · rw [he]
    rcases bits_of_decodeByte_rejected hw with hrsv | ⟨hrsv, h0, h1, hurl⟩
    · rw [if_pos hrsv]
    · rw [if_neg (not_not_intro hrsv), if_neg h0, if_neg h1, if_pos hurl]

/-! ### A reserved command (R75) -/

theorem not_readsUndefined_of_rejected (s : State) {c : Byte} {why : Reject}
    (h : decodeByte c = .rejected why) : ¬s.readsUndefined c := by
  rintro (⟨_, _, hi, _⟩ | ⟨_, _, hi, _⟩) <;> cases h.symm.trans hi

theorem engineTurn_start_of_rejected (s : State) {c : Byte} {why : Reject}
    (h : decodeByte c = .rejected why) :
    engineTurn (s.start c) = .next (s.start c).completeIllegal :=
  (engineTurn_of_busy rfl).trans (engineStep_of_rejected h)

/-- `ILLEGAL_CMD` touches no entry of `OBUF` (R75, R174). -/
theorem State.start_completeIllegal (s : State) (c : Byte) :
    (s.start c).completeIllegal =
      { s with cmd := c, outLen := 0, status := Status.failed .illegalCmd } := by
  rw [completeIllegal, complete, Memory.undefineBelow_zero]
  rfl

theorem hostWrite_cmd_of_defined {s : State} (hb : s.status.busy = false) (v : Data)
    (h : ¬s.readsUndefined (v.extractLsb' 0 8)) :
    hostWrite 0x0000 v s = .next (s.start (v.extractLsb' 0 8)) :=
  (hostWrite_cmd hb v rfl).trans (startOperation_of_defined h)

/-- Settles O49: a reserved command reads no input, so both its own write and its completion answer, and
the block it leaves is not busy. -/
theorem reservedCommandCompletesIllegal : Obligations.ReservedCommandCompletesIllegal := by
  intro s v why hb h
  exact ⟨hostWrite_cmd_of_defined hb v (not_readsUndefined_of_rejected s h), _,
    engineTurn_start_of_rejected s h, s.start_completeIllegal _, rfl,
    hostWrite_cmd_of_defined rfl⟩

end Sys2Proof.Machine

/-! PROOFS. The contents of the tables (40_tables.md R92 to R98). The encode tables are compared with
their closed form once; the decode tables follow from them by two rules: the entry of a symbol is the
value it encodes (`decEntry_of_encSymbol`), and the entry of any other code but `=` is INVALID
(`decEntry_eq_entryInvalid`). -/

namespace Sys2Proof.Machine

/-! ### The encode tables (R92, R93) -/

/-- Settles O4: each table is compared with its closed form at each of the 64 values. -/
theorem encodeTablesInClosedForm : Obligations.EncodeTablesInClosedForm := by
  intro a
  cases a <;> decide

theorem mem_encTable_iff {a : Alphabet} {c : Byte} :
    c ∈ encTable a ↔ ∃ k, encSymbol a k = c := by
  constructor
  · intro h
    obtain ⟨i, hi, rfl⟩ := List.mem_iff_getElem.mp h
    rw [encTable_length] at hi
    exact ⟨BitVec.ofNatLT i hi, rfl⟩
  · rintro ⟨k, rfl⟩
    exact List.getElem_mem _

theorem padSym_notMem_encTable (a : Alphabet) : padSym ∉ encTable a := fun h =>
  (mem_encTable_iff.mp h).elim (encSymbol_ne_padSym a)

/-- The symbols by their codes: the three runs of R90, and the two symbols particular to an alphabet. -/
theorem mem_encTable_cases {a : Alphabet} {c : Byte} (h : c ∈ encTable a) :
    (0x41 ≤ c ∧ c ≤ 0x5A) ∨ (0x61 ≤ c ∧ c ≤ 0x7A) ∨ (0x30 ≤ c ∧ c ≤ 0x39) ∨
      c = encSymbol a 62 ∨ c = encSymbol a 63 := by
  obtain ⟨k, rfl⟩ := mem_encTable_iff.mp h
  by_cases hk : k.toNat ≤ 61
  · rw [encodeTablesInClosedForm a]
    split_ifs <;> bv_omega
  · have hlast : k = 62 ∨ k = 63 := by bv_omega
    rcases hlast with rfl | rfl <;> simp

/-! ### The two rules of a decode table (R94, R96) -/

theorem positionFrom_eq_none {k : Nat} {c : Byte} {enc : List Byte} (h : c ∉ enc) :
    positionFrom k c enc = none := by
  induction enc generalizing k with
  | nil => rfl
  | cons d rest ih =>
    obtain ⟨hd, hrest⟩ := not_or.mp (mt List.mem_cons.mpr h)
    rw [positionFrom, if_neg (Ne.symm hd), ih hrest]

theorem decEntry_eq_entryInvalid {a : Alphabet} {c : Byte} (hp : c ≠ padSym)
    (h : c ∉ encTable a) : decEntry a c = entryInvalid := by
  rw [decEntry, decodeTableEntry, positionFrom_eq_none h]
  exact if_neg hp

theorem decEntry_of_encSymbol {a : Alphabet} {k : Sextet} {c : Byte} (h : encSymbol a k = c) :
    decEntry a c = k.setWidth 8 := h ▸ decEntry_encSymbol a k

theorem encSymbol_injective (a : Alphabet) : Function.Injective (encSymbol a) := fun j k h => by
  have hjk := (decEntry_of_encSymbol h).symm.trans (decEntry_encSymbol a k)
  bv_omega

/-- A table with a left inverse repeats no symbol. -/
theorem encTable_nodup (a : Alphabet) : (encTable a).Nodup := by
  refine List.nodup_iff_injective_getElem.mpr fun i j h => Fin.ext ?_
  have hi : i.1 < 2 ^ 6 := i.isLt.trans_eq (encTable_length a)
  have hj : j.1 < 2 ^ 6 := j.isLt.trans_eq (encTable_length a)
  have hij : BitVec.ofNatLT i.1 hi = BitVec.ofNatLT j.1 hj := encSymbol_injective a h
  simpa using congrArg BitVec.toNat hij

theorem decEntry_of_encSymbol_setWidth {a : Alphabet} {v : Entry} {c : Byte}
    (hv : v.toNat ≤ 63) (h : encSymbol a (v.setWidth 6) = c) : decEntry a c = v := by
  rw [decEntry_of_encSymbol h]
  bv_omega

/-- Settles O6: what no value encodes to is not in the encode table. -/
theorem decodeTableInvertsEncodeTable : Obligations.DecodeTableInvertsEncodeTable := fun a =>
  ⟨decEntry_encSymbol a, decEntry_padSym a, fun _ hp hne =>
    decEntry_eq_entryInvalid hp fun hmem => (mem_encTable_iff.mp hmem).elim hne⟩

/-! ### Values and sentinels (R97): an entry tells whether its code is a symbol, `=` or neither -/

theorem isSentinel_eq_false_iff_mem {a : Alphabet} {c : Byte} :
    isSentinel (decEntry a c) = false ↔ c ∈ encTable a := by
  constructor
  · intro h
    by_contra hmem
    by_cases hp : c = padSym
    · rw [hp, decEntry_padSym] at h; cases h
    · rw [decEntry_eq_entryInvalid hp hmem] at h; cases h
  · intro h
    obtain ⟨k, rfl⟩ := mem_encTable_iff.mp h
    rw [decEntry_encSymbol]
    exact isSentinel_setWidth k

theorem decEntry_eq_entryPad_iff {a : Alphabet} {c : Byte} :
    decEntry a c = entryPad ↔ c = padSym :=
  ⟨decEntry_eq_entryPad, fun h => h ▸ decEntry_padSym a⟩

theorem decEntry_ne_entryInvalid_iff {a : Alphabet} {c : Byte} :
    decEntry a c ≠ entryInvalid ↔ c ∈ padSym :: encTable a := by
  constructor
  · intro h
    by_contra hmem
    obtain ⟨hp, hc⟩ := not_or.mp (mt List.mem_cons.mpr hmem)
    exact h (decEntry_eq_entryInvalid hp hc)
  · intro h e
    rcases List.mem_cons.mp h with rfl | hc
    · cases (decEntry_padSym a).symm.trans e
    · rw [← isSentinel_eq_false_iff_mem, e] at hc
      cases hc

theorem isValue_iff_toNat_le (v : Entry) : IsValue v ↔ v.toNat ≤ 63 := by
  have hlt := v.isLt
  simp only [IsValue, BitVec.getLsbD, Nat.testBit_eq_decide_div_mod_eq, decide_eq_false_iff_not]
  omega

/-- Settles O7: each entry is a value or a sentinel, and bit 7 of an OR is the OR of the bits. -/
theorem sentinelsByTheHighBit : Obligations.SentinelsByTheHighBit := by
  refine ⟨rfl, rfl, rfl, rfl, fun a c => ⟨⟨fun h => ?_, ?_⟩, fun h => ?_, fun h => ?_⟩,
    fun v0 v1 v2 v3 => ?_⟩
  · rcases decEntry_cases a c with ⟨hv, -⟩ | ⟨hpad, -⟩ | hinv
    · cases hv.symm.trans h
    · exact .inl hpad
    · exact .inr hinv
  · rintro (h | h) <;> rw [h] <;> rfl
  · exact (isValue_iff_toNat_le _).mp (isValue_of_not_sentinel h)
  · exact ((isValue_iff_toNat_le _).mpr h).1
  · simp [isSentinel, and_assoc]

/-! ### The decode tables, entry by entry (R95) -/

/-- The closed form of both decode tables at once, in terms of an alphabet's own two symbols. -/
theorem decEntry_eq_closedForm (a : Alphabet) (c : Byte) :
    decEntry a c =
      if 0x41 ≤ c ∧ c ≤ 0x5A then c - 0x41
      else if 0x61 ≤ c ∧ c ≤ 0x7A then c - 0x61 + 26
      else if 0x30 ≤ c ∧ c ≤ 0x39 then c - 0x30 + 52
      else if c = padSym then entryPad
      else if c = encSymbol a 62 then 62
      else if c = encSymbol a 63 then 63
      else entryInvalid := by
  split_ifs with hu hl hd hp h62 h63
  · refine decEntry_of_encSymbol_setWidth (by bv_omega) ?_
    rw [encodeTablesInClosedForm a, if_pos (by bv_omega)]
    bv_omega
  · refine decEntry_of_encSymbol_setWidth (by bv_omega) ?_
    rw [encodeTablesInClosedForm a, if_neg (by bv_omega), if_pos (by bv_omega)]
    bv_omega
  · refine decEntry_of_encSymbol_setWidth (by bv_omega) ?_
    rw [encodeTablesInClosedForm a, if_neg (by bv_omega), if_neg (by bv_omega),
      if_pos (by bv_omega)]
    bv_omega
  · exact hp ▸ decEntry_padSym a
  · exact decEntry_of_encSymbol h62.symm
  · exact decEntry_of_encSymbol h63.symm
  · refine decEntry_eq_entryInvalid hp fun hmem => ?_
    rcases mem_encTable_cases hmem with h | h | h | h | h <;> contradiction

/-! ### The built table and its counts (R94, R95) -/

theorem buildDecodeTable_length (enc : List Byte) : (buildDecodeTable enc).length = 256 := by
  rw [buildDecodeTable, List.length_map, List.length_range]

theorem buildDecodeTable_getElem? (enc : List Byte) (c : Byte) :
    (buildDecodeTable enc)[c.toNat]? = some (decodeTableEntry enc c) := by
  rw [buildDecodeTable, List.getElem?_map, List.getElem?_range c.isLt]
  simp

theorem buildDecodeTable_eq_map (a : Alphabet) :
    buildDecodeTable (encTable a) = ((List.range 256).map (BitVec.ofNat 8)).map (decEntry a) :=
  (List.map_map (f := BitVec.ofNat 8) (g := decEntry a)).symm

theorem mem_range_map_ofNat (c : Byte) : c ∈ (List.range 256).map (BitVec.ofNat 8) :=
  List.mem_map.mpr ⟨c.toNat, List.mem_range.mpr c.isLt, by simp⟩

theorem nodup_range_map_ofNat : ((List.range 256).map (BitVec.ofNat 8)).Nodup := by
  refine List.Nodup.map_on (fun i hi j hj h => ?_) List.nodup_range
  have hi' := List.mem_range.mp hi
  have hj' := List.mem_range.mp hj
  bv_omega

/-- As many entries of the built table have a property as there are codes with such an entry. -/
theorem countP_buildDecodeTable {P : Entry → Bool} {a : Alphabet} {codes : List Byte}
    (hn : codes.Nodup) (h : ∀ c, P (decEntry a c) = true ↔ c ∈ codes) :
    (buildDecodeTable (encTable a)).countP P = codes.length := by
  have hperm : (((List.range 256).map (BitVec.ofNat 8)).filter (P ∘ decEntry a)).Perm codes := by
    refine (List.perm_ext_iff_of_nodup (nodup_range_map_ofNat.filter _) hn).mpr fun c => ?_
    rw [List.mem_filter, Function.comp_apply, h]
    exact and_iff_right (mem_range_map_ofNat c)
  rw [buildDecodeTable_eq_map, List.countP_map, List.countP_eq_length_filter]
  exact hperm.length_eq

theorem countP_value (a : Alphabet) :
    (buildDecodeTable (encTable a)).countP (fun v => !isSentinel v) = 64 :=
  (countP_buildDecodeTable (encTable_nodup a) (by simp [isSentinel_eq_false_iff_mem])).trans
    (encTable_length a)

theorem count_entryPad (a : Alphabet) :
    (buildDecodeTable (encTable a)).count entryPad = 1 :=
  countP_buildDecodeTable (List.nodup_singleton padSym) (by simp [decEntry_eq_entryPad_iff])

/-- The 65 codes of an alphabet and of `=` are those with another entry than INVALID. -/
theorem count_entryInvalid (a : Alphabet) :
    (buildDecodeTable (encTable a)).count entryInvalid = 191 := by
  have hsplit := (buildDecodeTable (encTable a)).length_eq_countP_add_countP (· == entryInvalid)
  rw [buildDecodeTable_length, ← List.count,
    countP_buildDecodeTable (List.nodup_cons.mpr ⟨padSym_notMem_encTable a, encTable_nodup a⟩)
      fun c => by rw [← decEntry_ne_entryInvalid_iff (a := a)]; simp,
    List.length_cons, encTable_length] at hsplit
  omega

/-! ### Where the two tables differ (R95) -/

/-- The closed form depends on the alphabet at its own two symbols alone. -/
theorem decEntry_standard_eq_urlSafe {c : Byte}
    (h : ∀ a : Alphabet, c ≠ encSymbol a 62 ∧ c ≠ encSymbol a 63) :
    decEntry .standard c = decEntry .urlSafe c := by
  simp only [decEntry_eq_closedForm, h, if_false]

/-- Settles O5: the built table has the entry of each code at its index, and the two tables can differ
at the four symbols of one alphabet alone. -/
theorem decodeTablesInClosedForm : Obligations.DecodeTablesInClosedForm := by
  refine ⟨fun a c => ?_, fun a => ⟨buildDecodeTable_length _, buildDecodeTable_getElem? _,
    countP_value a, count_entryPad a, count_entryInvalid a⟩, fun c => ⟨fun hne => ?_, ?_⟩⟩
  · cases a <;> exact decEntry_eq_closedForm _ c
  · by_contra hc
    simp only [not_or] at hc
    obtain ⟨h2B, h2D, h2F, h5F⟩ := hc
    refine hne (decEntry_standard_eq_urlSafe fun a => ?_)
    cases a
    · exact ⟨h2B, h2F⟩
    · exact ⟨h2D, h5F⟩
  · rintro (rfl | rfl | rfl | rfl) <;> decide

/-! ### Unpadded decoding (R144 to R146) -/

/-- In unpadded mode every entry of the final group must be a value (R146). -/
theorem needed_unpadded (vs : List Entry) : needed false vs = vs.length := by
  unfold needed
  split <;> rfl

theorem finalGroup_unpadded_eq_err_iff {vs : List Entry} {kind : FailKind} :
    finalGroup false vs = .err kind ↔ checkAll vs = some kind := by
  rw [finalGroup, needed_unpadded, List.take_length]
  cases checkAll vs <;> simp

/-- Past the length check an unpadded decode fails exactly when some entry is a sentinel, as the check of
the whole input says. -/
theorem decodeGroups_unpadded_eq_err_iff {a : Alphabet} {ss : List Byte} {kind : FailKind} :
    decodeGroups a false ss = .err kind ↔ checkAll (ss.map (decEntry a)) = some kind := by
  induction ss using fours_induction with
  | nil => simp [checkAll]
  | one s => exact finalGroup_unpadded_eq_err_iff
  | two s0 s1 => exact finalGroup_unpadded_eq_err_iff
  | three s0 s1 s2 => exact finalGroup_unpadded_eq_err_iff
  | four s0 s1 s2 s3 => exact finalGroup_unpadded_eq_err_iff
  | group s0 s1 s2 s3 rest hne ih =>
    have happend : (s0 :: s1 :: s2 :: s3 :: rest).map (decEntry a) =
        [s0, s1, s2, s3].map (decEntry a) ++ rest.map (decEntry a) := rfl
    rw [decodeGroups_group _ _ _ _ _ _ _ hne, happend, checkAll_append]
    cases checkAll ([s0, s1, s2, s3].map (decEntry a)) with
    | some k => simp
    | none =>
      rw [← ih]
      cases decodeGroups a false rest <;> simp [DecodeResult.prepend]

/-- A successful unpadded decode has symbols of the alphabet alone in its input (R146). -/
theorem mem_encTable_of_decodeSeq_unpadded {a : Alphabet} {symbols out : List Byte}
    (h : decodeSeq a false symbols = .bytes out) : ∀ c ∈ symbols, c ∈ encTable a := by
  unfold decodeSeq at h
  split at h
  · cases h
  · have hcheck : checkAll (symbols.map (decEntry a)) = none := by
      refine Option.eq_none_iff_forall_ne_some.mpr fun kind hk => ?_
      cases h.symm.trans (decodeGroups_unpadded_eq_err_iff.mpr hk)
    exact fun c hc => isSentinel_eq_false_iff_mem.mp ((checkAll_eq_none_iff a _).mp hcheck c hc)

/-! ### Codes outside an alphabet (R98) -/

/-- Every symbol is a printable code (R90). -/
theorem printable_of_mem_encTable {a : Alphabet} {c : Byte} (h : c ∈ encTable a) :
    0x20 < c ∧ c < 0x80 := by
  rcases mem_encTable_cases h with hu | hl | hd | rfl | rfl
  · bv_omega
  · bv_omega
  · bv_omega
  · cases a <;> decide
  · cases a <;> decide

theorem decEntry_of_not_printable (a : Alphabet) {c : Byte} (h : c ≤ 0x20 ∨ 0x80 ≤ c) :
    decEntry a c = entryInvalid := by
  refine decEntry_eq_entryInvalid ?_ fun hmem => ?_
  · rw [padSym]; bv_omega
  · obtain ⟨hlow, hhigh⟩ := printable_of_mem_encTable hmem
    bv_omega

theorem whitespace_le_space :
    ∀ c ∈ ([0x20, 0x09, 0x0D, 0x0A, 0x00] : List Byte), c ≤ 0x20 := by decide

/-- Settles O8: R98's codes are in neither the alphabet nor the place of `=`, and a successful unpadded
decode has symbols of the alphabet alone in its input. -/
theorem symbolsOutsideAnAlphabet : Obligations.SymbolsOutsideAnAlphabet := by
  refine ⟨decEntry_eq_entryInvalid (by decide) (by decide),
    decEntry_eq_entryInvalid (by decide) (by decide),
    decEntry_eq_entryInvalid (by decide) (by decide),
    decEntry_eq_entryInvalid (by decide) (by decide),
    fun a => ⟨fun c hc => ?_, fun c hc => ?_, decEntry_padSym a⟩, fun a symbols out h hmem => ?_⟩
  · exact decEntry_of_not_printable a (.inr hc)
  · exact decEntry_of_not_printable a (.inl (whitespace_le_space c hc))
  · exact padSym_notMem_encTable a (mem_encTable_of_decodeSeq_unpadded h _ hmem)

end Sys2Proof.Machine

/-! PROOFS. The length calculations (41_length.md R110 to R117). The two functions are given in closed form
per padding mode, and the encoded length its exact bound of 32 bits (R112); the four operations then follow
from what a completion without output makes of the state. -/

namespace Sys2Proof.Machine

/-! ### The two functions (R110, R111) -/

section
variable (n : Nat)

theorem encodedLength_padded : encodedLength n true = (n + 2) / 3 * 4 := rfl

theorem encodedLength_unpadded :
    encodedLength n false =
      n / 3 * 4 + (if n % 3 = 0 then 0 else if n % 3 = 1 then 2 else 3) := by
  have hr : n % 3 < 3 := Nat.mod_lt n (by decide)
  simp only [encodedLength, Bool.false_eq_true, if_false]
  split_ifs <;> omega

theorem decodedLength_padded : decodedLength n true = n / 4 * 3 := rfl

theorem decodedLength_unpadded : decodedLength n false = n / 4 * 3 + n % 4 := rfl

theorem decodedLength_le (p : Bool) : decodedLength n p ≤ n := by
  cases p
  · rw [decodedLength_unpadded]; omega
  · rw [decodedLength_padded]; omega

/-- Decoding the groups of a padded encoding leaves room for whole groups of three bytes (R117). -/
theorem decodedLength_encodedLength_padded :
    decodedLength (encodedLength n true) true =
      n + (if n % 3 = 0 then 0 else if n % 3 = 1 then 2 else 1) := by
  rw [encodedLength_padded, decodedLength_padded, Nat.mul_div_cancel _ (by decide)]
  split_ifs <;> omega

/-- A short final group of an unpadded encoding has one symbol more than it has bytes (R117). -/
theorem decodedLength_encodedLength_unpadded :
    decodedLength (encodedLength n false) false = n + (if n % 3 = 0 then 0 else 1) := by
  rw [encodedLength_unpadded, decodedLength_unpadded]
  split_ifs <;> omega

end

/-- Settles O9: both closed forms are compared at each remainder of `n` by 3. -/
theorem encodedLengthFormula : Obligations.EncodedLengthFormula := by
  intro n
  rw [encodedLength_padded, encodedLength_unpadded]
  refine ⟨rfl, rfl, Nat.mul_mod_left _ 4, ?_, ?_, ?_, ?_⟩
  · split_ifs <;> omega
  · intro h; rw [if_pos h]; omega
  · intro h; rw [if_neg (by omega), if_pos h]; omega
  · intro h; rw [if_neg (by omega), if_neg (by omega)]; omega

/-- Settles O10: the surplus is exact in both modes, so the bound is never below the input. -/
theorem decodedLengthBoundsRoundTrip : Obligations.DecodedLengthBoundsRoundTrip := by
  refine fun n => ⟨fun p => ?_, decodedLength_encodedLength_padded n,
    decodedLength_encodedLength_unpadded n⟩
  cases p
  · rw [decodedLength_encodedLength_unpadded]; exact Nat.le_add_right _ _
  · rw [decodedLength_encodedLength_padded]; exact Nat.le_add_right _ _

/-! ### Which lengths fit 32 bits (R112) -/

theorem encodedLength_padded_lt_iff (n : Nat) :
    encodedLength n true < 2 ^ 32 ↔ n ≤ 3221225469 := by
  rw [encodedLength_padded]; omega

theorem encodedLength_unpadded_lt_iff (n : Nat) :
    encodedLength n false < 2 ^ 32 ↔ n ≤ 3221225471 := by
  rw [encodedLength_unpadded]; split_ifs <;> omega

/-! ### The operations (R112 to R116) -/

section
variable (s : State)

theorem State.complete_ok_nil (len : Nat) :
    s.complete (.ok len []) =
      { s with outLen := BitVec.ofNat 32 len, status := Status.succeeded } := rfl

theorem State.complete_fail_zero (kind : FailKind) :
    s.complete (.fail kind 0) = { s with outLen := 0, status := Status.failed kind } := by
  rw [complete, Memory.undefineBelow_zero]

/-- The effect of an encoded-length operation, `OUT_LEN` and `STATUS` alone, where the lengths that fit
32 bits are those of an `IN_LEN` up to `bound`. -/
theorem encLenOp_eq {p : Bool} {bound : Nat}
    (hbound : encodedLength s.inCount p < 2 ^ 32 ↔ s.inCount ≤ bound) :
    encLenOp p s =
      if s.inCount ≤ bound then
        .next { s with
          outLen := BitVec.ofNat 32 (encodedLength s.inCount p), status := Status.succeeded }
      else .next { s with outLen := 0, status := Status.failed .range } := by
  rcases encLenOp_cases p s with ⟨hlen, hx⟩ | ⟨hlen, hx⟩
  · rw [hx, if_neg (mt hbound.mpr (Nat.not_lt.mpr hlen)), s.complete_fail_zero]
  · rw [hx, if_pos (hbound.mp hlen), s.complete_ok_nil]

/-- The effect of a decoded-length operation, `OUT_LEN` and `STATUS` alone. -/
theorem decLenOp_eq (p : Bool) :
    decLenOp p s =
      .next { s with
        outLen := BitVec.ofNat 32 (decodedLength s.inCount p), status := Status.succeeded } :=
  congrArg Host.Outcome.next (s.complete_ok_nil _)

end

/-- Settles O12: a success is only of a length below `2 ^ 32`, which `OUT_LEN` holds as it is. -/
theorem encLenNeverTruncates : Obligations.EncLenNeverTruncates := by
  intro f hf s t h
  rw [exec_encLenForm f hf] at h
  rcases encLenOp_cases f.2 s with ⟨hlen, hx⟩ | ⟨hlen, hx⟩ <;> cases hx.symm.trans h
  · exact .inr ⟨rfl, rfl, rfl, hlen⟩
  · exact .inl ⟨rfl, Nat.mod_eq_of_lt hlen⟩

/-- Settles O11: the bound of 32 bits is, per padding mode, a bound of `IN_LEN`. -/
theorem encLenCompletes : Obligations.EncLenCompletes := by
  refine ⟨decodeByte_encodeByte .encLenNopad, decodeByte_encodeByte .encLenPad,
    fun s => ⟨?_, encLenOp_eq s (encodedLength_padded_lt_iff s.inCount)⟩⟩
  have hnopad := encLenOp_eq s (encodedLength_unpadded_lt_iff s.inCount)
  rw [encodedLength_unpadded] at hnopad
  exact hnopad

/-- Settles O13: a decoded length is at most `IN_LEN`, so it fits as well. -/
theorem decLenCompletes : Obligations.DecLenCompletes :=
  ⟨decodeByte_encodeByte .decLenNopad, decodeByte_encodeByte .decLenPad, fun s =>
    ⟨decLenOp_eq s false, decLenOp_eq s true,
      (decodedLength_le s.inCount false).trans_lt s.inLen.isLt⟩⟩

end Sys2Proof.Machine

/-! PROOFS. The encodes (42_encode.md R121 to R130). An encoding is the table at one list of 6-bit values,
the same for both alphabets and padding modes, with the pads after it; its groups stand one after the
other, so what follows `g` full groups is the encoding of the bytes that follow them. -/

namespace Sys2Proof.Machine

/-! ### The values and the pads (R121, R124) -/

/-- The 6-bit values that an encode looks up, in order (R122, R124). -/
def sextets : List Byte → List Sextet
  | [] => []
  | [b] => packOne b
  | [b0, b1] => packTwo b0 b1
  | b0 :: b1 :: b2 :: rest => packThree b0 b1 b2 ++ sextets rest

/-- How many `=` a padded encoding of `n` bytes ends with (R124). -/
def padCount (n : Nat) : Nat := if n % 3 = 0 then 0 else 3 - n % 3

theorem padCount_add_three (n : Nat) : padCount (n + 3) = padCount n := by
  simp only [padCount, Nat.add_mod_right]

theorem padCount_le_two (n : Nat) : padCount n ≤ 2 := by
  unfold padCount
  split_ifs <;> omega

theorem encodeSeq_eq (a : Alphabet) (p : Bool) (bytes : List Byte) :
    encodeSeq a p bytes =
      (sextets bytes).map (encSymbol a) ++ padding p (padCount bytes.length) := by
  induction bytes using threes_induction with
  | nil => cases p <;> rfl
  | one b => rfl
  | two b0 b1 => rfl
  | group b0 b1 b2 rest ih =>
    rw [encodeSeq_group, ih, sextets, List.map_append, List.append_assoc, List.length_cons,
      List.length_cons, List.length_cons, padCount_add_three]

theorem encodeSeq_unpadded (a : Alphabet) (bytes : List Byte) :
    encodeSeq a false bytes = (sextets bytes).map (encSymbol a) :=
  (encodeSeq_eq a false bytes).trans (List.append_nil _)

theorem encodeSeq_padded (a : Alphabet) (bytes : List Byte) :
    encodeSeq a true bytes =
      encodeSeq a false bytes ++ List.replicate (padCount bytes.length) padSym := by
  rw [encodeSeq_unpadded]
  exact encodeSeq_eq a true bytes

theorem exists_encSymbol_of_mem_unpadded {a : Alphabet} {bytes : List Byte} {c : Byte}
    (h : c ∈ encodeSeq a false bytes) : ∃ v, c = encSymbol a v := by
  rw [encodeSeq_unpadded] at h
  obtain ⟨v, -, hv⟩ := List.mem_map.mp h
  exact ⟨v, hv.symm⟩

/-- Settles O17: the unpadded encoding is of table symbols alone, and `=` is none of them. -/
theorem paddedEncodingIsUnpaddedWithPads : Obligations.PaddedEncodingIsUnpaddedWithPads := by
  refine fun a bytes => ⟨encodeSeq_padded a bytes, fun hmem => ?_⟩
  obtain ⟨v, hv⟩ := exists_encSymbol_of_mem_unpadded hmem
  exact encSymbol_ne_padSym a v hv.symm

/-- Settles O16: a position past the unpadded encoding is one of the pads, of which there are at most
two. -/
theorem encodeLengthAndAlphabet : Obligations.EncodeLengthAndAlphabet := by
  refine fun a p bytes => ⟨encodeSeq_length a p bytes, encodeSeq_nil a p, fun k c h => ?_⟩
  cases p with
  | false => exact .inl (exists_encSymbol_of_mem_unpadded (List.mem_of_getElem? h))
  | true =>
    have hlen := encodeSeq_length a true bytes
    rw [encodeSeq_padded] at h hlen
    rcases Nat.lt_or_ge k (encodeSeq a false bytes).length with hk | hk
    · rw [List.getElem?_append_left hk] at h
      exact .inl (exists_encSymbol_of_mem_unpadded (List.mem_of_getElem? h))
    · rw [List.getElem?_append_right hk] at h
      have hpads := padCount_le_two bytes.length
      rw [List.length_append, List.length_replicate] at hlen
      exact .inr ⟨List.eq_of_mem_replicate (List.mem_of_getElem? h), rfl, by omega⟩

/-! ### The two alphabets (R93) -/

/-- The translation of R130 (b): `+` to `-` and `/` to `_`. -/
def urlOfStandard (c : Byte) : Byte := if c = 0x2B then 0x2D else if c = 0x2F then 0x5F else c

theorem urlOfStandard_encSymbol : ∀ v : Sextet,
    urlOfStandard (encSymbol .standard v) = encSymbol .urlSafe v := by decide

theorem urlOfStandard_padding (p : Bool) (n : Nat) :
    (padding p n).map urlOfStandard = padding p n := by
  cases p with
  | false => rfl
  | true => exact List.map_replicate

/-- Settles O18: the two tables differ by the translation, which leaves `=` as it is. -/
theorem urlEncodingIsTranslatedStandard : Obligations.UrlEncodingIsTranslatedStandard := by
  intro p bytes
  change encodeSeq .urlSafe p bytes = (encodeSeq .standard p bytes).map urlOfStandard
  rw [encodeSeq_eq, encodeSeq_eq, List.map_append, List.map_map, urlOfStandard_padding]
  exact congrArg (· ++ _) (List.map_congr_left fun v _ => (urlOfStandard_encSymbol v).symm)

/-! ### The groups (R122, R124) -/

theorem encodeSeq_drop_groups (a : Alphabet) (p : Bool) (g : Nat) (bytes : List Byte)
    (h : 3 * g ≤ bytes.length) :
    (encodeSeq a p bytes).drop (4 * g) = encodeSeq a p (bytes.drop (3 * g)) := by
  induction g generalizing bytes with
  | zero => rfl
  | succ g ih =>
    match bytes, h with
    | b0 :: b1 :: b2 :: rest, h =>
      rw [encodeSeq_group]
      exact ih rest (by simp only [List.length_cons] at h; omega)

theorem drop_eq_cons_of_getElem? {α : Type} {l : List α} {i : Nat} {x : α}
    (h : l[i]? = some x) : l.drop i = x :: l.drop (i + 1) := by
  rw [List.drop_eq_getElem?_toList_append, h]
  rfl

/-- Settles O14: past the groups before it, group `j` is the first. -/
theorem encodeFullGroupSymbols : Obligations.EncodeFullGroupSymbols := by
  intro a p bytes j b0 b1 b2 h0 h1 h2
  obtain ⟨hj, -⟩ := List.getElem?_eq_some_iff.mp h0
  have hgroup := encodeSeq_drop_groups a p j bytes hj.le
  rw [drop_eq_cons_of_getElem? h0, drop_eq_cons_of_getElem? h1, drop_eq_cons_of_getElem? h2,
    encodeSeq_group, packThree_eq] at hgroup
  have hat (i : Nat) :
      (encodeSeq a p bytes)[4 * j + i]? = ((encodeSeq a p bytes).drop (4 * j))[i]? :=
    List.getElem?_drop.symm
  rw [hgroup] at hat
  exact ⟨hat 0, hat 1, hat 2, hat 3⟩

/-- Settles O15: past the full groups stands the encoding of the remainder alone. -/
theorem encodeRemainderAndPadding : Obligations.EncodeRemainderAndPadding := by
  refine fun a p bytes g => ⟨fun hlen => ?_, fun b hlen hb => ?_, fun b0 b1 hlen h0 h1 => ?_⟩
  · rw [encodeSeq_length, hlen]
    cases p with
    | false => rw [encodedLength_unpadded, if_pos (by omega)]; omega
    | true => rw [encodedLength_padded]; omega
  · rw [encodeSeq_drop_groups a p g bytes (by omega), drop_eq_cons_of_getElem? hb,
      List.drop_eq_nil_of_le hlen.le, encodeSeq_one, packOne_eq]
    rfl
  · rw [encodeSeq_drop_groups a p g bytes (by omega), drop_eq_cons_of_getElem? h0,
      drop_eq_cons_of_getElem? h1, List.drop_eq_nil_of_le hlen.le, encodeSeq_two, packTwo_eq]
    rfl

/-! ### The operations (R123, R125 to R128) -/

section
variable {s : State} {bytes : List Byte}

theorem encOp_of_inputIs {a : Alphabet} {p : Bool} (hinput : s.inputIs bytes)
    (hin : bytes.length ≤ s.cfg.inCap) (hout : encodedLength bytes.length p ≤ s.cfg.outCap) :
    encOp a p s =
      .next (s.complete (.ok (encodedLength bytes.length p) (encodeSeq a p bytes))) := by
  have hread := (readInput_eq_some_iff s bytes).mpr hinput
  obtain ⟨hlen, -⟩ := hinput
  rw [hlen] at hin hout ⊢
  rcases encOp_cases a p s with ⟨hcap, -⟩ | ⟨-, -, ⟨hnone, -⟩ | ⟨bs, hbs, hx⟩⟩
  · omega
  · cases hread.symm.trans hnone
  · cases hread.symm.trans hbs
    exact hx

/-- A length within `OBUF` is what `OUT_LEN` then holds (R59). -/
theorem State.complete_ok_outLen_toNat {len : Nat} (out : List Byte) (h : len ≤ s.cfg.outCap) :
    (s.complete (.ok len out)).outLen.toNat = len := by
  have hmax := s.cfg.outCap_max
  rw [complete_ok_outLen, BitVec.toNat_ofNat, Nat.mod_eq_of_lt (by omega)]

end

/-- Settles O19: the completion is the success whose output is the encoding, as long as it reports. -/
theorem encodeCompletes : Obligations.EncodeCompletes := by
  intro f hf s bytes hinput hin hout
  have hlen := s.complete_ok_outLen_toNat (encodeSeq f.2.1 f.2.2 bytes) hout
  have hfill := encodeSeq_length f.2.1 f.2.2 bytes
  refine ⟨_, (exec_encForm f hf s).trans (encOp_of_inputIs hinput hin hout), rfl, hlen,
    fun k hk => s.readByte_complete_ok hfill (hlen.symm ▸ hk), fun k hk => ?_, rfl⟩
  rw [State.complete_ok_obuf, Memory.readByte_writeRun, if_neg (by omega)]

end Sys2Proof.Machine

/-! PROOFS. The decode sequence (43_decode.md R141 to R148). A decode that passes the length check is
the check of the symbols which must be values, then the bytes of those values (`decodeSeq_eq`,
`decodeSeq_eq_bytes_iff`); whole groups before the rest of an input are decoded on their own
(`decodeSeq_append`). The bytes of a group and the count of a decode follow from these three. -/

namespace Sys2Proof.Machine

/-! ### The length check (R142) -/

theorem badLength_iff (p : Bool) (m : Nat) :
    badLength p m = true ↔ if p then m % 4 ≠ 0 else m % 4 = 1 := by
  cases p <;> simp [badLength]

theorem badLength_padded_eq_false {m : Nat} : badLength true m = false ↔ m % 4 = 0 := by
  simp [badLength]

theorem badLength_unpadded_eq_false {m : Nat} : badLength false m = false ↔ m % 4 ≠ 1 := by
  simp [badLength]

theorem badLength_of_whole_groups {m : Nat} (h : m % 4 = 0) (p : Bool) : badLength p m = false := by
  cases p with
  | false => exact badLength_unpadded_eq_false.mpr (by omega)
  | true => exact badLength_padded_eq_false.mpr h

/-! ### Where values must stand (R146, R147) -/

/-- The symbols of a decode's input that must be values, all others being the `=` that end it. -/
def requiredSymbols (p : Bool) (symbols : List Byte) : List Byte :=
  symbols.take (requiredCount p symbols)

theorem requiredSymbols_unpadded (ss : List Byte) : requiredSymbols false ss = ss :=
  List.take_length

theorem trailingPads_append (xs ys : List Byte) :
    trailingPads (xs ++ ys) =
      if trailingPads ys = ys.length then ys.length + trailingPads xs else trailingPads ys := by
  unfold trailingPads
  rw [List.reverse_append, List.takeWhile_append, List.length_reverse]
  split_ifs
  · rw [List.length_append, List.length_reverse]
  · rfl

theorem trailingPads_le_length (ss : List Byte) : trailingPads ss ≤ ss.length :=
  (List.takeWhile_sublist _).length_le.trans_eq List.length_reverse

theorem trailingPads_eq_zero {ss : List Byte} (h : padSym ∉ ss) : trailingPads ss = 0 := by
  rw [trailingPads, List.length_eq_zero_iff, List.takeWhile_eq_nil_iff]
  intro hpos hpad
  exact h (List.mem_reverse.mp (beq_iff_eq.mp hpad ▸ List.getElem_mem hpos))

theorem trailingPads_append_pads {ss : List Byte} (h : padSym ∉ ss) (n : Nat) :
    trailingPads (ss ++ List.replicate n padSym) = n := by
  have hpads : trailingPads (List.replicate n padSym) = n := by simp [trailingPads]
  rw [trailingPads_append, hpads, List.length_replicate, if_pos rfl, trailingPads_eq_zero h,
    Nat.add_zero]

/-- At most two pads count, so the last two symbols settle how many symbols are required. -/
theorem requiredCount_append {p : Bool} (xs : List Byte) {ys : List Byte}
    (h : p = true → 2 ≤ ys.length) :
    requiredCount p (xs ++ ys) = xs.length + requiredCount p ys := by
  cases p with
  | false => exact List.length_append
  | true =>
    have hys := h rfl
    have hle := trailingPads_le_length ys
    simp only [requiredCount, if_true, trailingPads_append, List.length_append]
    split_ifs <;> omega

theorem requiredSymbols_append {p : Bool} (xs : List Byte) {ys : List Byte}
    (h : p = true → 2 ≤ ys.length) :
    requiredSymbols p (xs ++ ys) = xs ++ requiredSymbols p ys := by
  rw [requiredSymbols, requiredCount_append xs h, List.take_length_add_append, requiredSymbols]

theorem requiredSymbols_of_no_pad (p : Bool) {ss : List Byte} (h : padSym ∉ ss) :
    requiredSymbols p ss = ss := by
  cases p with
  | false => exact requiredSymbols_unpadded ss
  | true =>
    simp only [requiredSymbols, requiredCount, trailingPads_eq_zero h, if_true, Nat.min_zero,
      Nat.sub_zero, List.take_length]

theorem requiredSymbols_append_pads {ss : List Byte} (h : padSym ∉ ss) {n : Nat} (hn : n ≤ 2) :
    requiredSymbols true (ss ++ List.replicate n padSym) = ss := by
  have hcount : requiredCount true (ss ++ List.replicate n padSym) = ss.length := by
    simp only [requiredCount, if_true, trailingPads_append_pads h, List.length_append,
      List.length_replicate]
    omega
  rw [requiredSymbols, hcount, List.take_left]

/-- `need` of R141 on a final group of four. -/
theorem needed_four (a : Alphabet) (p : Bool) (s0 s1 s2 s3 : Byte) :
    needed p ([s0, s1, s2, s3].map (decEntry a)) = requiredCount p [s0, s1, s2, s3] := by
  cases p with
  | false => rfl
  | true =>
    have hlast : requiredCount true [s0, s1, s2, s3] = 2 + requiredCount true [s2, s3] :=
      requiredCount_append [s0, s1] fun _ => Nat.le_refl 2
    simp only [hlast, List.map_cons, List.map_nil, needed, if_true, decEntry_eq_entryPad_iff]
    by_cases h3 : s3 = padSym
    · by_cases h2 : s2 = padSym <;> simp [h3, h2, requiredCount, trailingPads]
    · simp [h3, requiredCount, trailingPads]

/-! ### From values to bytes -/

/-- The bytes of a sequence of values, group by group (R145, R146). -/
def unpackGroups : List Entry → List Byte
  | v0 :: v1 :: v2 :: v3 :: rest => unpackFour v0 v1 v2 v3 ++ unpackGroups rest
  | vs => unpackGroup vs

theorem unpackGroups_four (v0 v1 v2 v3 : Entry) :
    unpackGroups [v0, v1, v2, v3] = unpackFour v0 v1 v2 v3 := List.append_nil _

theorem unpackGroups_of_length_le {vs : List Entry} (h : vs.length ≤ 4) :
    unpackGroups vs = unpackGroup vs := by
  match vs, h with
  | [], _ | [_], _ | [_, _], _ | [_, _, _], _ => rfl
  | [v0, v1, v2, v3], _ => exact unpackGroups_four v0 v1 v2 v3

theorem unpackGroups_length (vs : List Entry) :
    (unpackGroups vs).length = vs.length / 4 * 3 + (vs.length % 4 - 1) := by
  induction vs using fours_induction with
  | nil => rfl
  | one v => simp [unpackGroups, unpackGroup]
  | two v0 v1 => simp [unpackGroups, unpackGroup, unpackTwo]
  | three v0 v1 v2 => simp [unpackGroups, unpackGroup, unpackThree]
  | four v0 v1 v2 v3 => simp [unpackGroups_four, unpackFour]
  | group v0 v1 v2 v3 rest hne ih =>
    rw [unpackGroups, List.length_append, ih]
    simp only [unpackFour, List.length_cons, List.length_nil]
    omega

theorem unpackGroups_append {vs : List Entry} (ws : List Entry) (h : vs.length % 4 = 0) :
    unpackGroups (vs ++ ws) = unpackGroups vs ++ unpackGroups ws := by
  induction vs using fours_induction with
  | nil => rfl
  | one v => cases h
  | two v0 v1 => cases h
  | three v0 v1 v2 => cases h
  | four v0 v1 v2 v3 => rw [unpackGroups_four]; rfl
  | group v0 v1 v2 v3 rest hne ih =>
    simp only [List.length_cons] at h
    simp only [List.cons_append, unpackGroups, List.append_assoc, ih (by omega)]

theorem unpackGroups_drop {vs : List Entry} {g : Nat} (h : 4 * g ≤ vs.length) :
    (unpackGroups vs).drop (3 * g) = unpackGroups (vs.drop (4 * g)) := by
  have hlen : (vs.take (4 * g)).length = 4 * g := List.length_take_of_le h
  have hfront : (unpackGroups (vs.take (4 * g))).length = 3 * g := by
    rw [unpackGroups_length, hlen]; omega
  conv_lhs => rw [← List.take_append_drop (4 * g) vs, unpackGroups_append _ (by omega), ← hfront]
  exact List.drop_left

/-! ### A decode is the check of the required symbols, then their bytes (R144 to R147) -/

/-- What a sequence of entries decodes to where each of them must be a value. -/
def decodeValues (vs : List Entry) : DecodeResult :=
  match checkAll vs with
  | some kind => .err kind
  | none => .bytes (unpackGroups vs)

/-- The result of what stands first, then the result of what follows it. -/
def DecodeResult.andThen : DecodeResult → DecodeResult → DecodeResult
  | .bytes out, next => next.prepend out
  | .err kind, _ => .err kind

@[simp] theorem DecodeResult.prepend_bytes (out more : List Byte) :
    (DecodeResult.bytes more).prepend out = .bytes (out ++ more) := rfl

@[simp] theorem DecodeResult.prepend_err (out : List Byte) (kind : FailKind) :
    (DecodeResult.err kind).prepend out = .err kind := rfl

theorem decodeValues_append {vs : List Entry} (ws : List Entry) (h : vs.length % 4 = 0) :
    decodeValues (vs ++ ws) = (decodeValues vs).andThen (decodeValues ws) := by
  unfold decodeValues
  rw [checkAll_append, unpackGroups_append ws h]
  cases checkAll vs with
  | some kind => rfl
  | none => cases checkAll ws <;> rfl

theorem finalGroup_eq {p : Bool} {vs : List Entry} (h : vs.length ≤ 4) :
    finalGroup p vs = decodeValues (vs.take (needed p vs)) := by
  rw [decodeValues, unpackGroups_of_length_le ((List.length_take_le' _ _).trans h)]
  rfl

theorem decodeGroups_eq {a : Alphabet} {p : Bool} {ss : List Byte}
    (h : badLength p ss.length = false) :
    decodeGroups a p ss = decodeValues ((requiredSymbols p ss).map (decEntry a)) := by
  induction ss using fours_induction with
  | nil => cases p <;> rfl
  | one s => cases p <;> cases h
  | two s0 s1 =>
    cases p with
    | true => cases h
    | false => exact finalGroup_eq (p := false) (vs := [_, _]) (by simp)
  | three s0 s1 s2 =>
    cases p with
    | true => cases h
    | false => exact finalGroup_eq (p := false) (vs := [_, _, _]) (by simp)
  | four s0 s1 s2 s3 =>
    rw [requiredSymbols, List.map_take, ← needed_four]
    exact finalGroup_eq (Nat.le_refl 4)
  | group s0 s1 s2 s3 rest hne ih =>
    have hrest : badLength p rest.length = false := by
      simpa only [badLength, List.length_cons, Nat.add_assoc, Nat.add_mod_right] using h
    have hlen : p = true → 2 ≤ rest.length := by
      rintro rfl
      have hpos := List.length_pos_of_ne_nil hne
      have hfour := badLength_padded_eq_false.mp hrest
      omega
    have happend : requiredSymbols p (s0 :: s1 :: s2 :: s3 :: rest) =
        [s0, s1, s2, s3] ++ requiredSymbols p rest := requiredSymbols_append [s0, s1, s2, s3] hlen
    rw [happend, List.map_append, decodeValues_append _ (by simp), ← ih hrest,
      decodeGroups_group _ _ _ _ _ _ _ hne, decodeValues]
    cases checkAll ([s0, s1, s2, s3].map (decEntry a)) with
    | some kind => rfl
    | none => exact congrArg (DecodeResult.prepend · _) (unpackGroups_four _ _ _ _).symm

section
variable {a : Alphabet} {p : Bool} {ss : List Byte}

theorem decodeSeq_of_badLength (h : badLength p ss.length = true) :
    decodeSeq a p ss = .err .malformedInput := if_pos h

theorem decodeSeq_eq (h : badLength p ss.length = false) :
    decodeSeq a p ss = decodeValues ((requiredSymbols p ss).map (decEntry a)) := by
  rw [← decodeGroups_eq h]
  exact if_neg (by simp [h])

/-- A decode succeeds exactly when its length passes and values stand where they must. -/
theorem decodeSeq_eq_bytes_iff {out : List Byte} :
    decodeSeq a p ss = .bytes out ↔
      badLength p ss.length = false ∧
      (∀ c ∈ requiredSymbols p ss, isSentinel (decEntry a c) = false) ∧
      unpackGroups ((requiredSymbols p ss).map (decEntry a)) = out := by
  rw [← checkAll_eq_none_iff]
  cases hlen : badLength p ss.length with
  | true => simp [decodeSeq_of_badLength hlen]
  | false =>
    rw [decodeSeq_eq hlen, decodeValues]
    cases checkAll ((requiredSymbols p ss).map (decEntry a)) <;> simp

/-- Past the length check the first required symbol that is no value decides the kind. -/
theorem decodeSeq_of_sentinel {v : Entry} (h : badLength p ss.length = false)
    (hv : ((requiredSymbols p ss).map (decEntry a)).find? isSentinel = some v) :
    decodeSeq a p ss = .err (sentinelKind v) := by
  rw [decodeSeq_eq h, decodeValues, checkAll_map_decEntry, hv]
  rfl

theorem sentinelKind_ne_malformedInput (v : Entry) : sentinelKind v ≠ .malformedInput := by
  unfold sentinelKind
  split_ifs <;> decide

theorem decodeSeq_ne_malformedInput (h : badLength p ss.length = false) :
    decodeSeq a p ss ≠ .err .malformedInput := by
  rw [decodeSeq_eq h, decodeValues, checkAll_map_decEntry]
  cases ((requiredSymbols p ss).map (decEntry a)).find? isSentinel with
  | none => exact DecodeResult.noConfusion
  | some v => exact fun he => sentinelKind_ne_malformedInput v (DecodeResult.err.inj he)

/-- Whole groups before the rest of the input are decoded on their own (R143, R144). -/
theorem decodeSeq_append {pre : List Byte} (hpre : pre.length % 4 = 0)
    (h : badLength p ss.length = false) (hss : p = true → 2 ≤ ss.length) :
    decodeSeq a p (pre ++ ss) = (decodeSeq a false pre).andThen (decodeSeq a p ss) := by
  have hlen : badLength p (pre ++ ss).length = false := by
    rw [← h, badLength, badLength, List.length_append, Nat.add_mod, hpre, Nat.zero_add,
      Nat.mod_mod]
  rw [decodeSeq_eq hlen, decodeSeq_eq (badLength_of_whole_groups hpre false), decodeSeq_eq h,
    requiredSymbols_append pre hss, List.map_append, requiredSymbols_unpadded,
    decodeValues_append _ ((List.length_map _).symm ▸ hpre)]

end

/-- Settles O20: past the length check a decode fails only with the kind of a sentinel. -/
theorem decodeLengthCheckComesFirst : Obligations.DecodeLengthCheckComesFirst := by
  refine fun a symbols => ⟨fun h => decodeSeq_of_badLength ((badLength_iff true _).mpr h),
    fun h => decodeSeq_of_badLength ((badLength_iff false _).mpr h),
    fun h => decodeSeq_ne_malformedInput (badLength_padded_eq_false.mpr h),
    fun h => decodeSeq_ne_malformedInput (badLength_unpadded_eq_false.mpr h), fun p => ?_⟩
  cases p <;> rfl

/-! ### The bytes of a group (R145, R146) -/

theorem isValue_of_mem_map {a : Alphabet} {ss : List Byte}
    (h : ∀ c ∈ ss, isSentinel (decEntry a c) = false) : ∀ v ∈ ss.map (decEntry a), IsValue v := by
  intro v hv
  obtain ⟨c, hc, rfl⟩ := List.mem_map.mp hv
  exact isValue_of_not_sentinel (h c hc)

theorem map_decEntry_getElem? {a : Alphabet} {ss : List Byte} {k : Nat} {c : Byte}
    (h : ss[k]? = some c) : (ss.map (decEntry a))[k]? = some (decEntry a c) := by
  rw [List.getElem?_map, h]
  rfl

section
variable {v0 v1 v2 v3 : Entry} {rest : List Entry}

theorem unpackGroups_cons_four (h : ∀ v ∈ v0 :: v1 :: v2 :: v3 :: rest, IsValue v) :
    unpackGroups (v0 :: v1 :: v2 :: v3 :: rest) =
      [(v0 <<< 2) ||| (v1 >>> 4), ((v1 &&& 0x0F) <<< 4) ||| (v2 >>> 2),
        ((v2 &&& 0x03) <<< 6) ||| v3] ++ unpackGroups rest := by
  rw [unpackGroups, unpackFour_eq v0 v1 v2 v3 (h v1 (by simp)) (h v2 (by simp)) (h v3 (by simp))]

theorem unpackGroups_cons_three (h : ∀ v ∈ v0 :: v1 :: v2 :: rest, IsValue v) :
    ∃ more, unpackGroups (v0 :: v1 :: v2 :: rest) =
      ((v0 <<< 2) ||| (v1 >>> 4)) :: (((v1 &&& 0x0F) <<< 4) ||| (v2 >>> 2)) :: more := by
  cases rest with
  | nil => exact ⟨[], unpackThree_eq v0 v1 v2 (h v1 (by simp)) (h v2 (by simp))⟩
  | cons v3 rest => exact ⟨_, unpackGroups_cons_four h⟩

theorem unpackGroups_cons_two (h : ∀ v ∈ v0 :: v1 :: rest, IsValue v) :
    ∃ more, unpackGroups (v0 :: v1 :: rest) = ((v0 <<< 2) ||| (v1 >>> 4)) :: more := by
  cases rest with
  | nil => exact ⟨[], unpackTwo_eq v0 v1 (h v1 (by simp))⟩
  | cons v2 rest =>
    obtain ⟨more, hmore⟩ := unpackGroups_cons_three h
    exact ⟨_, hmore⟩

end

section
variable {vs : List Entry} {g : Nat} {v0 v1 v2 v3 : Entry}

theorem unpackGroups_getElem? (h : 4 * g ≤ vs.length) (i : Nat) :
    (unpackGroups vs)[3 * g + i]? = (unpackGroups (vs.drop (4 * g)))[i]? := by
  rw [← unpackGroups_drop h, List.getElem?_drop]

/-- Two values of a group, full or not, give its first byte. -/
theorem unpackGroups_firstByte (h : ∀ v ∈ vs, IsValue v) (h0 : vs[4 * g]? = some v0)
    (h1 : vs[4 * g + 1]? = some v1) :
    (unpackGroups vs)[3 * g]? = some ((v0 <<< 2) ||| (v1 >>> 4)) := by
  obtain ⟨hg, -⟩ := List.getElem?_eq_some_iff.mp h0
  have hdrop := (drop_eq_cons_of_getElem? h0).trans
    (congrArg (v0 :: ·) (drop_eq_cons_of_getElem? h1))
  obtain ⟨more, hmore⟩ := unpackGroups_cons_two fun v hv =>
    h v (List.mem_of_mem_drop (hdrop ▸ hv))
  exact (unpackGroups_getElem? hg.le 0).trans (by rw [hdrop, hmore]; rfl)

/-- Three values of a group, full or not, give its second byte, in which the first has no part. -/
theorem unpackGroups_secondByte (h : ∀ v ∈ vs, IsValue v) (h1 : vs[4 * g + 1]? = some v1)
    (h2 : vs[4 * g + 2]? = some v2) :
    (unpackGroups vs)[3 * g + 1]? = some (((v1 &&& 0x0F) <<< 4) ||| (v2 >>> 2)) := by
  obtain ⟨hg, -⟩ := List.getElem?_eq_some_iff.mp h1
  have hdrop := List.drop_eq_getElem_cons (Nat.lt_of_succ_lt hg)
  rw [drop_eq_cons_of_getElem? h1, drop_eq_cons_of_getElem? h2] at hdrop
  obtain ⟨more, hmore⟩ := unpackGroups_cons_three fun v hv =>
    h v (List.mem_of_mem_drop (hdrop ▸ hv))
  rw [unpackGroups_getElem? (by omega), hdrop, hmore]
  rfl

theorem unpackGroups_fullGroup (h : ∀ v ∈ vs, IsValue v) (h0 : vs[4 * g]? = some v0)
    (h1 : vs[4 * g + 1]? = some v1) (h2 : vs[4 * g + 2]? = some v2)
    (h3 : vs[4 * g + 3]? = some v3) :
    (unpackGroups vs)[3 * g]? = some ((v0 <<< 2) ||| (v1 >>> 4)) ∧
    (unpackGroups vs)[3 * g + 1]? = some (((v1 &&& 0x0F) <<< 4) ||| (v2 >>> 2)) ∧
    (unpackGroups vs)[3 * g + 2]? = some (((v2 &&& 0x03) <<< 6) ||| v3) := by
  refine ⟨unpackGroups_firstByte h h0 h1, unpackGroups_secondByte h h1 h2, ?_⟩
  obtain ⟨hg, -⟩ := List.getElem?_eq_some_iff.mp h0
  have hdrop := drop_eq_cons_of_getElem? h0
  rw [drop_eq_cons_of_getElem? h1, drop_eq_cons_of_getElem? h2, drop_eq_cons_of_getElem? h3]
    at hdrop
  rw [unpackGroups_getElem? hg.le, hdrop, unpackGroups_cons_four fun v hv =>
    h v (List.mem_of_mem_drop (hdrop ▸ hv))]
  rfl

end

/-! ### A non-terminal group (R144, R145) -/

/-- The symbols of a non-terminal group are among the required ones. -/
theorem requiredSymbols_getElem? {p : Bool} {ss : List Byte} {g k : Nat}
    (hlen : badLength p ss.length = false) (hg : 4 * g + 4 < ss.length) (hk : k < 4 * g + 4) :
    (requiredSymbols p ss)[k]? = ss[k]? := by
  refine List.getElem?_take_of_lt ?_
  cases p with
  | false => exact hk.trans hg
  | true =>
    have hfour := badLength_padded_eq_false.mp hlen
    simp only [requiredCount, if_true]
    omega

/-- Settles O21: all four symbols of the group are required to be values. -/
theorem decodeNonTerminalGroup : Obligations.DecodeNonTerminalGroup := by
  intro a p symbols g s0 s1 s2 s3 hg h0 h1 h2 h3
  cases hdec : decodeSeq a p symbols with
  | err kind => exact ⟨fun out h => DecodeResult.noConfusion h, fun _ => ⟨kind, rfl⟩⟩
  | bytes out =>
    obtain ⟨hlen, hvalues, rfl⟩ := decodeSeq_eq_bytes_iff.mp hdec
    rw [← requiredSymbols_getElem? hlen hg (by omega)] at h0 h1 h2 h3
    constructor
    · rintro _ ⟨⟩
      exact unpackGroups_fullGroup (isValue_of_mem_map hvalues) (map_decEntry_getElem? h0)
        (map_decEntry_getElem? h1) (map_decEntry_getElem? h2) (map_decEntry_getElem? h3)
    · intro hsentinel
      simp [hvalues _ (List.mem_of_getElem? h0), hvalues _ (List.mem_of_getElem? h1),
        hvalues _ (List.mem_of_getElem? h2), hvalues _ (List.mem_of_getElem? h3)] at hsentinel

/-! ### Unpadded decode (R146) -/

/-- Settles O22: every symbol is required, and the bytes of a group follow from its values whether
it is full or not. -/
theorem unpaddedDecode : Obligations.UnpaddedDecode := by
  intro a symbols hmod
  have hlen := badLength_unpadded_eq_false.mpr hmod
  refine ⟨fun v hv => decodeSeq_of_sentinel hlen (by rwa [requiredSymbols_unpadded]),
    fun hnone => ?_⟩
  have hvalues : ∀ c ∈ symbols, isSentinel (decEntry a c) = false := by simpa using hnone
  have hdec : decodeSeq a false symbols = .bytes (unpackGroups (symbols.map (decEntry a))) := by
    rw [← requiredSymbols_unpadded symbols] at hvalues
    exact decodeSeq_eq_bytes_iff.mpr ⟨hlen, hvalues, by rw [requiredSymbols_unpadded]⟩
  have hbits := isValue_of_mem_map hvalues
  refine ⟨_, hdec, by rw [unpackGroups_length, List.length_map],
    fun g s0 s1 s2 s3 h0 h1 h2 h3 => unpackGroups_fullGroup hbits (map_decEntry_getElem? h0)
      (map_decEntry_getElem? h1) (map_decEntry_getElem? h2) (map_decEntry_getElem? h3),
    fun s0 s1 _ h0 h1 => ?_, fun s1 s2 h1 h2 => ?_⟩
  · rw [Nat.mul_comm _ 4] at h0 h1
    rw [Nat.mul_comm _ 3]
    exact unpackGroups_firstByte hbits (map_decEntry_getElem? h0) (map_decEntry_getElem? h1)
  · rw [Nat.mul_comm _ 4] at h1 h2
    rw [Nat.mul_comm _ 3]
    exact unpackGroups_secondByte hbits (map_decEntry_getElem? h1) (map_decEntry_getElem? h2)

/-! ### The count of a successful decode (R117, R148) -/

theorem ne_padSym_of_value {a : Alphabet} {c : Byte} (h : isSentinel (decEntry a c) = false) :
    c ≠ padSym := by
  rintro rfl
  rw [decEntry_padSym] at h
  cases h

/-- An input with no `=` before its last two symbols ends in at most two. -/
theorem trailingPads_le_two {ss : List Byte} (h : padSym ∉ requiredSymbols true ss) :
    trailingPads ss ≤ 2 := by
  by_contra hpads
  have hcount : requiredCount true ss = ss.length - 2 := by
    simp only [requiredCount, if_true]
    omega
  rw [requiredSymbols, hcount] at h
  have hlast := trailingPads_append (ss.take (ss.length - 2)) (ss.drop (ss.length - 2))
  have hle := trailingPads_le_length (ss.drop (ss.length - 2))
  rw [List.take_append_drop, trailingPads_eq_zero h] at hlast
  rw [List.length_drop] at hlast hle
  split_ifs at hlast <;> omega

/-- Settles O25: the required symbols, all but at most two pads, give the count. -/
theorem decodedCountIsExact : Obligations.DecodedCountIsExact := by
  intro a symbols out
  constructor <;> intro h <;> obtain ⟨hlen, hvalues, rfl⟩ := decodeSeq_eq_bytes_iff.mp h <;>
    rw [unpackGroups_length, List.length_map]
  · have hpads := trailingPads_le_two fun hmem => ne_padSym_of_value (hvalues _ hmem) rfl
    have hle := trailingPads_le_length symbols
    have hfour := badLength_padded_eq_false.mp hlen
    have hcount :
        (requiredSymbols true symbols).length = symbols.length - trailingPads symbols := by
      simp only [requiredSymbols, requiredCount, if_true, List.length_take]
      omega
    rw [hcount]
    omega
  · have hne := badLength_unpadded_eq_false.mp hlen
    rw [requiredSymbols_unpadded]
    split_ifs <;> omega

end Sys2Proof.Machine

/-! PROOFS. The final group of a decode (43_decode.md R146, R147, R154, R155): what two, three or four
required symbols decode to, and how many of them a padded group has; the groups before it come in by
`decodeSeq_append`. -/

namespace Sys2Proof.Machine

/-! ### The final group (R146, R147) -/

section
variable (a : Alphabet) (s0 s1 s2 s3 : Byte)

theorem checkAll_decEntry_cons (c : Byte) (vs : List Entry) :
    checkAll (decEntry a c :: vs) =
      if isSentinel (decEntry a c) then some (sentinelKind (decEntry a c)) else checkAll vs := by
  rw [checkAll, checkEntry_decEntry]
  split_ifs <;> rfl

theorem decodeValues_two :
    decodeValues ([s0, s1].map (decEntry a)) =
      if isSentinel (decEntry a s0) then .err (sentinelKind (decEntry a s0))
      else if isSentinel (decEntry a s1) then .err (sentinelKind (decEntry a s1))
      else .bytes [(decEntry a s0 <<< 2) ||| (decEntry a s1 >>> 4)] := by
  simp only [decodeValues, List.map_cons, checkAll_decEntry_cons]
  split_ifs with h0 h1
  · rfl
  · rfl
  · have hv1 := isValue_of_not_sentinel (Bool.eq_false_of_not_eq_true h1)
    exact congrArg DecodeResult.bytes (unpackTwo_eq _ _ hv1)

theorem decodeValues_three :
    decodeValues ([s0, s1, s2].map (decEntry a)) =
      if isSentinel (decEntry a s0) then .err (sentinelKind (decEntry a s0))
      else if isSentinel (decEntry a s1) then .err (sentinelKind (decEntry a s1))
      else if isSentinel (decEntry a s2) then .err (sentinelKind (decEntry a s2))
      else .bytes [(decEntry a s0 <<< 2) ||| (decEntry a s1 >>> 4),
        ((decEntry a s1 &&& 0x0F) <<< 4) ||| (decEntry a s2 >>> 2)] := by
  simp only [decodeValues, List.map_cons, checkAll_decEntry_cons]
  split_ifs with h0 h1 h2
  · rfl
  · rfl
  · rfl
  · have hv1 := isValue_of_not_sentinel (Bool.eq_false_of_not_eq_true h1)
    have hv2 := isValue_of_not_sentinel (Bool.eq_false_of_not_eq_true h2)
    exact congrArg DecodeResult.bytes (unpackThree_eq _ _ _ hv1 hv2)

theorem decodeValues_four :
    decodeValues ([s0, s1, s2, s3].map (decEntry a)) =
      if isSentinel (decEntry a s0) then .err (sentinelKind (decEntry a s0))
      else if isSentinel (decEntry a s1) then .err (sentinelKind (decEntry a s1))
      else if isSentinel (decEntry a s2) then .err (sentinelKind (decEntry a s2))
      else if isSentinel (decEntry a s3) then .err (sentinelKind (decEntry a s3))
      else .bytes [(decEntry a s0 <<< 2) ||| (decEntry a s1 >>> 4),
        ((decEntry a s1 &&& 0x0F) <<< 4) ||| (decEntry a s2 >>> 2),
        ((decEntry a s2 &&& 0x03) <<< 6) ||| decEntry a s3] := by
  simp only [decodeValues, List.map_cons, checkAll_decEntry_cons]
  split_ifs with h0 h1 h2 h3
  · rfl
  · rfl
  · rfl
  · rfl
  · have hv1 := isValue_of_not_sentinel (Bool.eq_false_of_not_eq_true h1)
    have hv2 := isValue_of_not_sentinel (Bool.eq_false_of_not_eq_true h2)
    have hv3 := isValue_of_not_sentinel (Bool.eq_false_of_not_eq_true h3)
    exact congrArg DecodeResult.bytes
      ((unpackGroups_four _ _ _ _).trans (unpackFour_eq _ _ _ _ hv1 hv2 hv3))

end

section
variable {a : Alphabet} {s0 s1 s2 s3 : Byte}

theorem badLength_four : badLength true [s0, s1, s2, s3].length = false :=
  badLength_padded_eq_false.mpr (Nat.mod_self 4)

theorem decodeSeq_padded_four {required : List Byte}
    (h : requiredSymbols true [s2, s3] = required) :
    decodeSeq a true [s0, s1, s2, s3] =
      decodeValues ((s0 :: s1 :: required).map (decEntry a)) := by
  rw [decodeSeq_eq badLength_four, ← h]
  exact congrArg (fun ss => decodeValues (ss.map (decEntry a)))
    (requiredSymbols_append (ys := [s2, s3]) [s0, s1] fun _ => Nat.le_refl 2)

theorem decodeSeq_two_pads :
    decodeSeq a true [s0, s1, padSym, padSym] = decodeValues ([s0, s1].map (decEntry a)) :=
  decodeSeq_padded_four rfl

theorem decodeSeq_one_pad (h2 : s2 ≠ padSym) :
    decodeSeq a true [s0, s1, s2, padSym] = decodeValues ([s0, s1, s2].map (decEntry a)) :=
  decodeSeq_padded_four (requiredSymbols_append_pads (ss := [s2]) (n := 1)
    (by simpa using Ne.symm h2) (by decide))

theorem decodeSeq_no_pad (h3 : s3 ≠ padSym) :
    decodeSeq a true [s0, s1, s2, s3] = decodeValues ([s0, s1, s2, s3].map (decEntry a)) :=
  decodeSeq_padded_four (by simp [requiredSymbols, requiredCount, trailingPads, h3])

end

/-! ### The final group after the groups before it (R147, R154, R155) -/

/-- Whole groups of values decode alike in both modes. -/
theorem decodeSeq_of_values {a : Alphabet} {ss : List Byte} (hlen : ss.length % 4 = 0)
    (h : ∀ c ∈ ss, isSentinel (decEntry a c) = false) (p : Bool) :
    decodeSeq a p ss = .bytes (unpackGroups (ss.map (decEntry a))) := by
  have hpad : padSym ∉ ss := fun hmem => ne_padSym_of_value (h _ hmem) rfl
  have hgood := badLength_of_whole_groups hlen p
  rw [← requiredSymbols_of_no_pad p hpad] at h
  exact decodeSeq_eq_bytes_iff.mpr ⟨hgood, h, by rw [requiredSymbols_of_no_pad p hpad]⟩

/-- Settles O23: groups of values only put their bytes before those of the final group, of which two,
three or four symbols are required by the pads that end it. -/
theorem paddedFinalGroupPatterns : Obligations.PaddedFinalGroupPatterns := by
  rintro a pre out s0 s1 s2 s3 _ _ _ _ hpre hvalues hout rfl rfl rfl rfl
  rw [decodeSeq_of_values hpre hvalues true, ← decodeSeq_of_values hpre hvalues false] at hout
  rw [decodeSeq_append hpre badLength_four fun _ => by simp, hout, DecodeResult.andThen]
  simp only [decEntry_eq_entryPad_iff]
  by_cases h3 : s3 = padSym
  · subst h3
    by_cases h2 : s2 = padSym
    · subst h2
      rw [decodeSeq_two_pads, decodeValues_two, if_pos (⟨rfl, rfl⟩ : _ ∧ _)]
      simp only [apply_ite (DecodeResult.prepend out), DecodeResult.prepend_bytes,
        DecodeResult.prepend_err]
    · rw [decodeSeq_one_pad h2, decodeValues_three, if_neg (not_and_of_not_left _ h2), if_pos rfl]
      simp only [apply_ite (DecodeResult.prepend out), DecodeResult.prepend_bytes,
        DecodeResult.prepend_err]
  · rw [decodeSeq_no_pad h3, decodeValues_four, if_neg (not_and_of_not_right _ h3), if_neg h3]
    simp only [apply_ite (DecodeResult.prepend out), DecodeResult.prepend_bytes,
      DecodeResult.prepend_err]

/-- Settles O27: the first `=` stands where a value is required. -/
theorem allPaddingFinalGroupFails : Obligations.AllPaddingFinalGroupFails := by
  intro a pre x hpre hvalues hx
  have hpatterns (s0 : Byte) := paddedFinalGroupPatterns a pre _ s0 padSym padSym padSym
    _ _ _ _ hpre hvalues (decodeSeq_of_values hpre hvalues true) rfl rfl rfl rfl
  constructor
  · refine (hpatterns padSym).trans ?_
    rw [decEntry_padSym]
    rfl
  · refine (hpatterns x).trans ?_
    rw [decEntry_padSym, hx]
    rfl

section
variable {a : Alphabet} {z z' : Byte} (hz : isSentinel (decEntry a z) = false)
  (hz' : isSentinel (decEntry a z') = false)
include hz hz'

theorem decodeValues_two_congr (h : decEntry a z >>> 4 = decEntry a z' >>> 4) (x : Byte) :
    decodeValues ([x, z].map (decEntry a)) = decodeValues ([x, z'].map (decEntry a)) := by
  rw [decodeValues_two, decodeValues_two, hz, hz', h]
  rfl

theorem decodeValues_three_congr (h : decEntry a z >>> 2 = decEntry a z' >>> 2) (x y : Byte) :
    decodeValues ([x, y, z].map (decEntry a)) = decodeValues ([x, y, z'].map (decEntry a)) := by
  rw [decodeValues_three, decodeValues_three, hz, hz', h]
  rfl

end

theorem decodeSeq_append_congr {a : Alphabet} {p : Bool} {pre ss ss' : List Byte}
    (hpre : pre.length % 4 = 0) (hlen : ss.length = ss'.length)
    (hgood : badLength p ss.length = false) (htwo : 2 ≤ ss.length)
    (h : decodeSeq a p ss = decodeSeq a p ss') :
    decodeSeq a p (pre ++ ss) = decodeSeq a p (pre ++ ss') := by
  rw [decodeSeq_append hpre hgood fun _ => htwo, h,
    decodeSeq_append hpre (hlen ▸ hgood) fun _ => hlen ▸ htwo]

/-- Settles O26: a short final group decodes alike in both modes, to bytes in which those bits have
no part. -/
theorem trailingBitsAreIgnored : Obligations.TrailingBitsAreIgnored := by
  intro a pre x y z z' hpre hz hz'
  refine ⟨fun h => ?_, fun h => ?_⟩
  · have htwo := decodeValues_two_congr hz hz' h x
    exact ⟨decodeSeq_append_congr hpre rfl rfl (by simp) htwo,
      decodeSeq_append_congr hpre rfl badLength_four (by simp)
        (decodeSeq_two_pads.trans (htwo.trans decodeSeq_two_pads.symm))⟩
  · have hthree := decodeValues_three_congr hz hz' h x y
    exact ⟨decodeSeq_append_congr hpre rfl rfl (by simp) hthree,
      decodeSeq_append_congr hpre rfl badLength_four (by simp)
        ((decodeSeq_one_pad (ne_padSym_of_value hz)).trans
          (hthree.trans (decodeSeq_one_pad (ne_padSym_of_value hz')).symm))⟩

end Sys2Proof.Machine

/-! PROOFS. Round trips (43_decode.md R158, R159) and the decode operations (R149 to R153). The
required symbols of an encoding are the same encoding without pads, whatever table reads them. -/

namespace Sys2Proof.Machine

/-! ### Round trips of the sequences (R158) -/

theorem padSym_notMem_encodeSeq_unpadded (a : Alphabet) (bytes : List Byte) :
    padSym ∉ encodeSeq a false bytes := (paddedEncodingIsUnpaddedWithPads a bytes).2

/-- In an encoding of the same padding mode values stand everywhere but in the pads. -/
theorem requiredSymbols_encodeSeq (a : Alphabet) (p : Bool) (bytes : List Byte) :
    requiredSymbols p (encodeSeq a p bytes) = encodeSeq a false bytes := by
  cases p with
  | false => exact requiredSymbols_unpadded _
  | true =>
    rw [encodeSeq_padded]
    exact requiredSymbols_append_pads (padSym_notMem_encodeSeq_unpadded a bytes) (padCount_le_two _)

theorem badLength_encodeSeq (a : Alphabet) (p : Bool) (bytes : List Byte) :
    badLength p (encodeSeq a p bytes).length = false := by
  obtain ⟨-, -, hpad, hnopad, -⟩ := encodedLengthFormula bytes.length
  rw [encodeSeq_length]
  cases p with
  | false => exact badLength_unpadded_eq_false.mpr hnopad
  | true => exact badLength_padded_eq_false.mpr hpad

theorem isSentinel_of_mem_encodeSeq_unpadded {a : Alphabet} {bytes : List Byte} {c : Byte}
    (h : c ∈ encodeSeq a false bytes) : isSentinel (decEntry a c) = false := by
  obtain ⟨v, rfl⟩ := exists_encSymbol_of_mem_unpadded h
  rw [decEntry_encSymbol]
  exact isSentinel_setWidth v

theorem unpackGroups_sextets (bytes : List Byte) :
    unpackGroups ((sextets bytes).map entryOf) = bytes := by
  induction bytes using threes_induction with
  | nil => rfl
  | one b => exact unpackGroup_packOne b
  | two b0 b1 => exact unpackGroup_packTwo b0 b1
  | group b0 b1 b2 rest ih =>
    rw [sextets, List.map_append, unpackGroups_append _ (by simp [packThree]), ih,
      unpackGroups_of_length_le (by simp [packThree]), unpackGroup_packThree]
    rfl

theorem unpackGroups_encodeSeq_unpadded (a : Alphabet) (bytes : List Byte) :
    unpackGroups ((encodeSeq a false bytes).map (decEntry a)) = bytes := by
  rw [encodeSeq_unpadded, map_decEntry_encSymbol, unpackGroups_sextets]

/-- Settles O28: the required symbols of an encoding are its values, which unpack to the bytes. -/
theorem encodeDecodeRoundTrip : Obligations.EncodeDecodeRoundTrip := by
  refine fun a p bytes =>
    decodeSeq_eq_bytes_iff.mpr ⟨badLength_encodeSeq a p bytes, ?_, ?_⟩ <;>
    rw [requiredSymbols_encodeSeq]
  · exact fun _ => isSentinel_of_mem_encodeSeq_unpadded
  · exact unpackGroups_encodeSeq_unpadded a bytes

/-! ### Mixed padding modes and alphabets (R159) -/

theorem padCount_eq_zero_iff (n : Nat) : padCount n = 0 ↔ n % 3 = 0 := by
  unfold padCount
  split_ifs <;> omega

theorem encodeSeq_padded_of_mod_eq_zero {a : Alphabet} {bytes : List Byte}
    (h : bytes.length % 3 = 0) : encodeSeq a true bytes = encodeSeq a false bytes := by
  rw [encodeSeq_padded, (padCount_eq_zero_iff _).mpr h]
  exact List.append_nil _

theorem decodeSeq_unpadded_append_pad {a : Alphabet} {values rest : List Byte}
    (hlen : (values ++ padSym :: rest).length % 4 ≠ 1)
    (hv : ∀ c ∈ values, isSentinel (decEntry a c) = false) :
    decodeSeq a false (values ++ padSym :: rest) = .err .misplacedPadding := by
  refine decodeSeq_of_sentinel (v := entryPad) (badLength_unpadded_eq_false.mpr hlen) ?_
  rw [requiredSymbols_unpadded, List.map_append, List.find?_append, List.map_cons, decEntry_padSym,
    List.find?_eq_none.mpr (by simpa using hv)]
  rfl

theorem decodeSeq_unpadded_encodeSeq_padded (a : Alphabet) (bytes : List Byte) :
    decodeSeq a false (encodeSeq a true bytes) =
      if bytes.length % 3 = 0 then .bytes bytes else .err .misplacedPadding := by
  split_ifs with h
  · rw [encodeSeq_padded_of_mod_eq_zero h]
    exact encodeDecodeRoundTrip a false bytes
  · obtain ⟨n, hn⟩ := Nat.exists_eq_succ_of_ne_zero (mt (padCount_eq_zero_iff _).mp h)
    obtain ⟨-, -, hlen, -⟩ := encodedLengthFormula bytes.length
    rw [← encodeSeq_length a] at hlen
    rw [encodeSeq_padded, hn, List.replicate_succ] at hlen ⊢
    exact decodeSeq_unpadded_append_pad (by omega) fun _ => isSentinel_of_mem_encodeSeq_unpadded

theorem decodeSeq_padded_encodeSeq_unpadded (a : Alphabet) (bytes : List Byte) :
    decodeSeq a true (encodeSeq a false bytes) =
      if bytes.length % 3 = 0 then .bytes bytes else .err .malformedInput := by
  split_ifs with h
  · rw [← encodeSeq_padded_of_mod_eq_zero h]
    exact encodeDecodeRoundTrip a true bytes
  · refine decodeSeq_of_badLength ((badLength_iff true _).mpr ?_)
    rw [encodeSeq_length, encodedLength_unpadded, if_neg h, if_pos rfl]
    split_ifs <;> omega

/-- What the other alphabet makes of a symbol: nothing of the two particular ones, the same value of
the rest (R95, R159). -/
theorem decEntry_other_alphabet : ∀ {a b : Alphabet}, a ≠ b → ∀ k : Sextet,
    decEntry b (encSymbol a k) =
      if encSymbol a k = encSymbol a 62 ∨ encSymbol a k = encSymbol a 63 then entryInvalid
      else decEntry a (encSymbol a k) := by
  intro a b
  cases a <;> cases b <;> decide

theorem encSymbol_mem_encodeSeq_iff {a : Alphabet} {p : Bool} {bytes : List Byte} {k : Sextet} :
    encSymbol a k ∈ encodeSeq a p bytes ↔ encSymbol a k ∈ encodeSeq a false bytes := by
  cases p with
  | false => rfl
  | true => simp [encodeSeq_padded, List.mem_replicate, encSymbol_ne_padSym]

theorem decodeSeq_other_alphabet_of_common {a b : Alphabet} (hab : a ≠ b) (p : Bool)
    {bytes : List Byte} (h62 : encSymbol a 62 ∉ encodeSeq a false bytes)
    (h63 : encSymbol a 63 ∉ encodeSeq a false bytes) :
    decodeSeq b p (encodeSeq a p bytes) = .bytes bytes := by
  have hmap : (encodeSeq a false bytes).map (decEntry b) =
      (encodeSeq a false bytes).map (decEntry a) := by
    refine List.map_congr_left fun c hc => ?_
    obtain ⟨k, rfl⟩ := exists_encSymbol_of_mem_unpadded hc
    rw [decEntry_other_alphabet hab, if_neg]
    rintro (hk | hk)
    · exact h62 (hk ▸ hc)
    · exact h63 (hk ▸ hc)
  have hlen := badLength_encodeSeq a p bytes
  rw [← encodeDecodeRoundTrip a p bytes, decodeSeq_eq hlen, decodeSeq_eq hlen,
    requiredSymbols_encodeSeq, hmap]

theorem decodeSeq_other_alphabet_of_particular {a b : Alphabet} (hab : a ≠ b) (p : Bool)
    {bytes : List Byte} {c : Byte} (hc : c = encSymbol a 62 ∨ c = encSymbol a 63)
    (hmem : c ∈ encodeSeq a false bytes) :
    decodeSeq b p (encodeSeq a p bytes) = .err .invalidSymbol := by
  have hentry : decEntry b c = entryInvalid := by
    obtain ⟨k, rfl⟩ := exists_encSymbol_of_mem_unpadded hmem
    rw [decEntry_other_alphabet hab, if_pos hc]
  have hfind : ((encodeSeq a false bytes).map (decEntry b)).find? isSentinel =
      some entryInvalid := by
    cases hf : ((encodeSeq a false bytes).map (decEntry b)).find? isSentinel with
    | none =>
      refine absurd isSentinel_entryInvalid (List.find?_eq_none.mp hf _ ?_)
      exact hentry ▸ List.mem_map_of_mem hmem
    | some v =>
      obtain ⟨d, hd, rfl⟩ := List.mem_map.mp (List.mem_of_find?_eq_some hf)
      have hsentinel := List.find?_some hf
      obtain ⟨k, rfl⟩ := exists_encSymbol_of_mem_unpadded hd
      rw [decEntry_other_alphabet hab] at hsentinel ⊢
      split_ifs at hsentinel ⊢
      · rfl
      · cases (isSentinel_of_mem_encodeSeq_unpadded hd).symm.trans hsentinel
  exact decodeSeq_of_sentinel (badLength_encodeSeq a p bytes)
    (requiredSymbols_encodeSeq a p bytes ▸ hfind)

theorem decodeSeq_other_alphabet {a b : Alphabet} (hab : a ≠ b) (p : Bool) (bytes : List Byte) :
    decodeSeq b p (encodeSeq a p bytes) =
      if encSymbol a 62 ∈ encodeSeq a p bytes ∨ encSymbol a 63 ∈ encodeSeq a p bytes
      then .err .invalidSymbol else .bytes bytes := by
  split_ifs with h
  · rcases h with h | h
    · exact decodeSeq_other_alphabet_of_particular hab p (.inl rfl)
        (encSymbol_mem_encodeSeq_iff.mp h)
    · exact decodeSeq_other_alphabet_of_particular hab p (.inr rfl)
        (encSymbol_mem_encodeSeq_iff.mp h)
  · obtain ⟨h62, h63⟩ := not_or.mp h
    exact decodeSeq_other_alphabet_of_common hab p (mt encSymbol_mem_encodeSeq_iff.mpr h62)
      (mt encSymbol_mem_encodeSeq_iff.mpr h63)

/-- Settles O29: pads are misplaced in an unpadded decode and missing from a padded one; the two
symbols particular to an alphabet are no symbols of the other. -/
theorem mixedModesDoNotRoundTrip : Obligations.MixedModesDoNotRoundTrip := fun a bytes =>
  ⟨decodeSeq_unpadded_encodeSeq_padded a bytes, decodeSeq_padded_encodeSeq_unpadded a bytes,
    fun p => decodeSeq_other_alphabet (a := .standard) (b := .urlSafe) (by decide) p bytes,
    fun p => decodeSeq_other_alphabet (a := .urlSafe) (b := .standard) (by decide) p bytes⟩

/-! ### The operations (R149 to R153) -/

section
variable {a : Alphabet} {p : Bool} {s : State} {symbols out : List Byte}

/-- A decode within the capacities of a sequence that decodes completes with the bytes, which fit
`OBUF`. -/
theorem decOp_of_inputIs (hinput : s.inputIs symbols) (hin : symbols.length ≤ s.cfg.inCap)
    (hout : decodedLength symbols.length p ≤ s.cfg.outCap)
    (hdec : decodeSeq a p symbols = .bytes out) :
    decOp a p s = .next (s.complete (.ok out.length out)) ∧ out.length ≤ s.cfg.outCap := by
  obtain ⟨hgood, -⟩ := decodeSeq_eq_bytes_iff.mp hdec
  have hwithin : (decodeSeq a p symbols).Within (decodedLength symbols.length p) :=
    decodeSeq_within hgood
  rw [hdec] at hwithin
  refine ⟨?_, Nat.le_trans hwithin hout⟩
  have hread := (readInput_eq_some_iff s symbols).mpr hinput
  obtain ⟨hlen, -⟩ := hinput
  rw [hlen] at hin hout hgood
  rcases decOp_cases a p s with ⟨hcap, -⟩ | ⟨-, -, ⟨hbad, -⟩ | ⟨-, ⟨hnone, -⟩ | ⟨ss, hss, hx⟩⟩⟩
  · omega
  · cases hgood.symm.trans hbad
  · cases hread.symm.trans hnone
  · cases hread.symm.trans hss
    rw [hx, hdec, decodeOutcome]

theorem decOp_of_badLength (hin : s.inCount ≤ s.cfg.inCap)
    (hout : decodedLength s.inCount p ≤ s.cfg.outCap) (hbad : badLength p s.inCount = true) :
    decOp a p s = .next { s with outLen := 0, status := Status.failed .malformedInput } := by
  rw [← s.complete_fail_zero]
  rcases decOp_cases a p s with ⟨hcap, -⟩ | ⟨-, -, ⟨-, hx⟩ | ⟨hgood, -⟩⟩
  · omega
  · exact hx
  · cases hbad.symm.trans hgood

/-- What an encode leaves in `OBUF` and `OUT_LEN`, a decode of the same mode takes back (R158). -/
theorem encOp_decOp_roundTrip {bytes : List Byte} (hinput : s.inputIs bytes)
    (hin : bytes.length ≤ s.cfg.inCap)
    (hlen : encodedLength bytes.length p ≤ min s.cfg.inCap s.cfg.outCap)
    (hdeclen : decodedLength (encodedLength bytes.length p) p ≤ s.cfg.outCap) :
    ∃ t, encOp a p s = .next t ∧
      ∀ u : State, u.cfg = s.cfg → u.inLen = t.outLen →
        (∀ k < t.outLen.toNat, u.ibuf.readByte k = t.obuf.readByte k) →
        ∃ v, decOp a p u = .next v ∧ v.status = Status.succeeded ∧
          v.outLen.toNat = bytes.length ∧ ∀ k < bytes.length, v.obuf.readByte k = bytes[k]? := by
  obtain ⟨hlenIn, hlenOut⟩ := le_min_iff.mp hlen
  have hsize := encodeSeq_length a p bytes
  have hcount := s.complete_ok_outLen_toNat (encodeSeq a p bytes) hlenOut
  refine ⟨_, encOp_of_inputIs hinput hin hlenOut, fun u hcfg hinLen hbuf => ?_⟩
  have hu : u.inputIs (encodeSeq a p bytes) := by
    refine ⟨?_, fun k hk => ?_⟩
    · rw [State.inCount, hinLen, hcount, hsize]
    · rw [hsize, ← hcount] at hk
      exact (hbuf k hk).trans (s.readByte_complete_ok hsize hk)
  rw [← hcfg, ← hsize] at hlenIn hdeclen
  obtain ⟨hx, hfit⟩ := decOp_of_inputIs hu hlenIn hdeclen (encodeDecodeRoundTrip a p bytes)
  have hback := u.complete_ok_outLen_toNat bytes hfit
  exact ⟨_, hx, rfl, hback, fun k hk => u.readByte_complete_ok rfl (hback.symm ▸ hk)⟩

end

/-- Settles O32: the length check stands between the `RANGE` tests and the first buffer access. -/
theorem malformedLengthTouchesNoBuffer : Obligations.MalformedLengthTouchesNoBuffer := by
  intro f hf s hin hout hbad
  rw [exec_decForm f hf]
  exact decOp_of_badLength hin hout ((badLength_iff _ _).mpr hbad)

/-- Settles O31: the completion is the success whose output is what the symbols decode to. -/
theorem decodeCompletes : Obligations.DecodeCompletes := by
  intro f hf s symbols hinput hin hout hlen hvalues
  obtain ⟨out, hdec⟩ : ∃ out, decodeSeq f.2.1 f.2.2 symbols = .bytes out :=
    ⟨_, decodeSeq_eq_bytes_iff.mpr ⟨hlen, hvalues, rfl⟩⟩
  obtain ⟨hx, hfit⟩ := decOp_of_inputIs hinput hin hout hdec
  have hcount := s.complete_ok_outLen_toNat out hfit
  exact ⟨_, _, hdec, (exec_decForm f hf s).trans hx, rfl, hcount,
    fun k hk => s.readByte_complete_ok rfl (hcount.symm ▸ hk),
    fun k hk => s.readByte_complete_of_reach_le hk, rfl⟩

/-- The forms of R72 pair an encode and a decode of the same alphabet and padding mode. -/
theorem encForms_zip_decForms {fd : (Instr × Alphabet × Bool) × (Instr × Alphabet × Bool)}
    (h : fd ∈ encForms.zip decForms) : fd.1 ∈ encForms ∧ fd.2 ∈ decForms ∧ fd.2.2 = fd.1.2 := by
  revert fd; decide

/-- Settles O30: the two forms of a pair are one encode and one decode of the same mode. -/
theorem operationRoundTrip : Obligations.OperationRoundTrip := by
  intro fd hfd s bytes hinput hin hlen hdeclen
  obtain ⟨henc, hdec, hmode⟩ := encForms_zip_decForms hfd
  simp only [exec_encForm _ henc, exec_decForm _ hdec, hmode]
  exact encOp_decOp_roundTrip hinput hin hlen hdeclen

end Sys2Proof.Machine

/-! PROOFS. How operations fail and that they end (60_exceptions.md R171 to R190). The exact conditions
of `RANGE` and of the kinds of a failed decode come first; that a started operation completes then
follows from the invariant of a run, which keeps undefined input from the engine. -/

namespace Sys2Proof.Machine

/-! ### Failed decodes (R172, R176, R177) -/

section
variable {a : Alphabet} {p : Bool} {ss : List Byte}

theorem sentinelKind_cases (v : Entry) :
    sentinelKind v = .invalidSymbol ∨ sentinelKind v = .misplacedPadding := by
  unfold sentinelKind
  split_ifs
  · exact .inr rfl
  · exact .inl rfl

theorem decodeSeq_of_no_sentinel (h : badLength p ss.length = false)
    (hnone : ((requiredSymbols p ss).map (decEntry a)).find? isSentinel = none) :
    decodeSeq a p ss = .bytes (unpackGroups ((requiredSymbols p ss).map (decEntry a))) := by
  rw [decodeSeq_eq h, decodeValues, checkAll_map_decEntry, hnone]
  rfl

/-- Past the length check the kinds of a failed decode are the two of a sentinel. -/
theorem kind_of_decodeSeq_eq_err {k : FailKind} (h : badLength p ss.length = false)
    (herr : decodeSeq a p ss = .err k) : k = .invalidSymbol ∨ k = .misplacedPadding := by
  cases hfind : ((requiredSymbols p ss).map (decEntry a)).find? isSentinel with
  | none => cases herr.symm.trans (decodeSeq_of_no_sentinel h hfind)
  | some v =>
    cases herr.symm.trans (decodeSeq_of_sentinel h hfind)
    exact sentinelKind_cases v

/-- Both kinds of a sentinel leave every entry below the bound undefined (R177). -/
theorem spoiledBy_of_sentinel_kind {k : FailKind} (h : k = .invalidSymbol ∨ k = .misplacedPadding)
    (m : Nat) (p : Bool) : spoiledBy k m p = decodedLength m p := by
  rcases h with rfl | rfl <;> rfl

/-- A decode within the capacities of a sequence that fails past the length check completes with its
kind. -/
theorem decOp_of_decodeSeq_eq_err {s : State} {k : FailKind} (hinput : s.inputIs ss)
    (hin : ss.length ≤ s.cfg.inCap) (hout : decodedLength ss.length p ≤ s.cfg.outCap)
    (hlen : badLength p ss.length = false) (herr : decodeSeq a p ss = .err k) :
    decOp a p s = .next (s.complete (.fail k (decodedLength ss.length p))) := by
  rw [← spoiledBy_of_sentinel_kind (kind_of_decodeSeq_eq_err hlen herr)]
  have hread := (readInput_eq_some_iff s ss).mpr hinput
  obtain ⟨hcount, -⟩ := hinput
  rw [hcount] at hin hout hlen ⊢
  rcases decOp_cases a p s with ⟨hcap, -⟩ | ⟨-, -, ⟨hbad, -⟩ | ⟨-, ⟨hnone, -⟩ | ⟨ss', hss, hx⟩⟩⟩
  · omega
  · cases hlen.symm.trans hbad
  · cases hread.symm.trans hnone
  · cases hread.symm.trans hss
    rw [hx, herr, decodeOutcome]

end

/-- Settles O24: the check of the required symbols stops at the first sentinel and passes without
one. -/
theorem firstOffendingSymbolDecides : Obligations.FirstOffendingSymbolDecides :=
  fun _ _ _ hlen => ⟨fun _ hv => decodeSeq_of_sentinel hlen hv,
    fun hnone => ⟨_, decodeSeq_of_no_sentinel hlen hnone⟩⟩

/-- Settles O33: the completion is the failure with the kind of the sequence, which makes the
entries below the bound undefined. -/
theorem failedDecodeCompletes : Obligations.FailedDecodeCompletes := by
  intro f hf s symbols k hinput hin hout hlen herr
  refine ⟨kind_of_decodeSeq_eq_err hlen herr, _,
    (exec_decForm f hf s).trans (decOp_of_decodeSeq_eq_err hinput hin hout hlen herr), rfl, rfl,
    fun j hj => ?_, fun j hj => s.readByte_complete_of_reach_le hj, rfl⟩
  rw [State.complete_fail_obuf, Memory.readByte_undefineBelow, if_pos hj]

/-! ### `RANGE` (R172, R173) -/

section
variable {a : Alphabet} {p : Bool} {s t : State}

theorem encOp_of_excess
    (h : s.cfg.inCap < s.inCount ∨ s.cfg.outCap < encodedLength s.inCount p) :
    encOp a p s = .next { s with outLen := 0, status := Status.failed .range } := by
  rw [← s.complete_fail_zero]
  rcases encOp_cases a p s with ⟨-, hx⟩ | ⟨hin, hout, -⟩
  · exact hx
  · omega

theorem decOp_of_excess
    (h : s.cfg.inCap < s.inCount ∨ s.cfg.outCap < decodedLength s.inCount p) :
    decOp a p s = .next { s with outLen := 0, status := Status.failed .range } := by
  rw [← s.complete_fail_zero]
  rcases decOp_cases a p s with ⟨-, hx⟩ | ⟨hin, hout, -⟩
  · exact hx
  · omega

theorem excess_of_encOp_range (h : encOp a p s = .next t) (herr : t.status.err = some .range) :
    s.cfg.inCap < s.inCount ∨ s.cfg.outCap < encodedLength s.inCount p := by
  rcases encOp_cases a p s with ⟨hcap, -⟩ | ⟨-, -, ⟨-, hx⟩ | ⟨bs, -, hx⟩⟩
  · exact hcap
  · cases hx.symm.trans h
  · cases hx.symm.trans h
    cases herr

/-- What a sequence decodes to is never reported as `RANGE`. -/
theorem complete_decodeOutcome_ne_range {ss : List Byte} (hlen : badLength p ss.length = false)
    (m : Nat) :
    (s.complete (decodeOutcome m p (decodeSeq a p ss))).status.err ≠ some .range := by
  cases hdec : decodeSeq a p ss with
  | bytes out => exact nofun
  | err k => rcases kind_of_decodeSeq_eq_err hlen hdec with rfl | rfl <;> exact nofun

theorem excess_of_decOp_range (h : decOp a p s = .next t) (herr : t.status.err = some .range) :
    s.cfg.inCap < s.inCount ∨ s.cfg.outCap < decodedLength s.inCount p := by
  rcases decOp_cases a p s with
    ⟨hcap, -⟩ | ⟨-, -, ⟨-, hx⟩ | ⟨hlen, ⟨-, hx⟩ | ⟨ss, hss, hx⟩⟩⟩
  · exact hcap
  · cases hx.symm.trans h
    cases herr
  · cases hx.symm.trans h
  · cases hx.symm.trans h
    rw [← length_of_readInput hss] at hlen
    exact absurd herr (complete_decodeOutcome_ne_range hlen _)

theorem encLenOp_range_iff (h : encLenOp p s = .next t) :
    t.status.err = some .range ↔ 2 ^ 32 ≤ encodedLength s.inCount p := by
  rcases encLenOp_cases p s with ⟨hlen, hx⟩ | ⟨hlen, hx⟩ <;> cases hx.symm.trans h
  · exact iff_of_true rfl hlen
  · exact iff_of_false nofun (Nat.not_le.mpr hlen)

end

/-- Settles O34: the `RANGE` tests come first in both codec shells, and no later failure has their
kind. -/
theorem rangeFailsBeforeAnyAccess : Obligations.RangeFailsBeforeAnyAccess := by
  refine ⟨fun f hf s => ?_, fun f hf s => ?_, fun f hf s t h => ?_, fun f hf s t h => ?_⟩
  · rw [exec_encForm f hf]
    exact ⟨encOp_of_excess, fun _ => excess_of_encOp_range⟩
  · rw [exec_decForm f hf]
    exact ⟨decOp_of_excess, fun _ => excess_of_decOp_range⟩
  · exact encLenOp_range_iff ((exec_encLenForm f hf s).symm.trans h)
  · cases (exec_decLenForm f hf s).symm.trans h
    rfl

/-! ### Completion on a defined input (R190, R210) -/

theorem undefined_of_exec_fault {i : Instr} {s : State} (h : exec i s = .fault .undefinedInput) :
    ∃ k < s.inCount, s.ibuf.readByte k = none := by
  rcases exec_eq_shell i s with ⟨a, p, -, hx⟩ | ⟨a, p, -, hx⟩ | ⟨p, hf, -⟩ | ⟨p, hf, -⟩
  · obtain ⟨-, -, hk⟩ := (encOp_fault_iff a p s).mp (hx ▸ h)
    exact hk
  · obtain ⟨-, -, -, hk⟩ := (decOp_fault_iff a p s).mp (hx ▸ h)
    exact hk
  · exact absurd (exec_fault_writesOutput h)
      (by simp [writesOutput_lengthForm _ (List.mem_append_left _ hf)])
  · exact absurd (exec_fault_writesOutput h)
      (by simp [writesOutput_lengthForm _ (List.mem_append_right _ hf)])

theorem exec_of_inputDefined (i : Instr) {s : State} (h : s.inputDefined) :
    ∃ r, exec i s = .next (s.complete r) := by
  rcases exec_outcome i s with ⟨r, hx, -⟩ | ⟨hx, -⟩
  · exact ⟨r, hx⟩
  · obtain ⟨k, hk, hnone⟩ := undefined_of_exec_fault hx
    exact absurd (h k hk) (by simp [hnone])

/-- Settles O36: a completion leaves `STATUS` and `OUT_LEN` as the invariant of R27 says. -/
theorem everyOperationCompletes : Obligations.EveryOperationCompletes := by
  intro i s h
  obtain ⟨r, hx⟩ := exec_of_inputDefined i h
  have hinv := s.statusInv_complete r
  exact ⟨_, hx, s.complete_done r, s.complete_busy r, hinv.done_result (s.complete_done r),
    hinv.not_ok_zero⟩

/-! ### The kinds of each operation (R171) -/

/-- The reset state of the reference block, but `IN_LEN` and the first entries of `IBUF` as given. -/
def State.holding (n : Data) (input : List Byte) : State :=
  { State.reset with inLen := n, ibuf := Memory.writeRun [] 0 input }

/-- For each kind but `ILLEGAL_CMD` a state from which every operation that may fail with it does: a
length past all bounds, one that no decode takes, and four symbols with `!` or a leading `=`. -/
def failingState : FailKind → State
  | .malformedInput => .holding 5 []
  | .invalidSymbol => .holding 4 [0x21, 0x51, 0x51, 0x51]
  | .misplacedPadding => .holding 4 [0x3D, 0x51, 0x51, 0x51]
  | .illegalCmd => .holding 0 []
  | .range => .holding 0xFFFFFFFF []

/-- The kind recorded by an operation that answers a next state. -/
def kindAfter (i : Instr) (s : State) : Option FailKind :=
  (nextOf (exec i s)).bind fun t => t.status.err

theorem kindAfter_eq_some_iff {i : Instr} {s : State} {k : FailKind} :
    kindAfter i s = some k ↔ ∃ t, exec i s = .next t ∧ t.status.err = some k := by
  unfold kindAfter
  cases exec i s <;> simp [nextOf]

section
variable (k : FailKind)

theorem kindAfter_encForm : ∀ f ∈ encForms, mayFailWith f.1 k = true →
    kindAfter f.1 (failingState k) = some k := by
  cases k <;> decide

theorem kindAfter_decForm : ∀ f ∈ decForms, mayFailWith f.1 k = true →
    kindAfter f.1 (failingState k) = some k := by
  cases k <;> decide

theorem kindAfter_encLenForm : ∀ f ∈ encLenForms, mayFailWith f.1 k = true →
    kindAfter f.1 (failingState k) = some k := by
  cases k <;> decide

theorem mayFailWith_decLenForm : ∀ f ∈ decLenForms, mayFailWith f.1 k = false := by
  cases k <;> decide

end

theorem kindAfter_failingState {i : Instr} {k : FailKind} (h : mayFailWith i k = true) :
    kindAfter i (failingState k) = some k := by
  rcases exec_eq_shell i (failingState k) with
    ⟨a, p, hf, -⟩ | ⟨a, p, hf, -⟩ | ⟨p, hf, -⟩ | ⟨p, hf, -⟩
  · exact kindAfter_encForm k _ hf h
  · exact kindAfter_decForm k _ hf h
  · exact kindAfter_encLenForm k _ hf h
  · exact absurd h (by simp [mayFailWith_decLenForm k _ hf])

theorem mayFailWith_of_exec {i : Instr} {s t : State} {k : FailKind} (h : exec i s = .next t)
    (herr : t.status.err = some k) : mayFailWith i k = true := by
  rcases exec_outcome i s with ⟨r, hx, hr⟩ | ⟨hx, -⟩ <;> cases hx.symm.trans h
  cases r with
  | ok len out => cases herr
  | fail kind n => cases herr; exact hr

/-- On the empty input after reset every operation has an empty result. -/
theorem exec_reset_succeeds (i : Instr) :
    ∃ t, exec i State.reset = .next t ∧ t.status.ok = true := by
  cases i <;> exact ⟨_, rfl, rfl⟩

/-- Settles O39: `failingState` realises every entry of the table, and an operation completes with
no other kind. -/
theorem kindsByOperation : Obligations.KindsByOperation := fun i =>
  ⟨fun _ => ⟨fun h => ⟨_, kindAfter_eq_some_iff.mp (kindAfter_failingState h)⟩,
    fun ⟨_, _, h, herr⟩ => mayFailWith_of_exec h herr⟩, _, exec_reset_succeeds i⟩

/-! ### Runs (R30, R190, R208) -/

/-- In a run the engine never meets undefined input, so its step completes the operation. -/
theorem State.Inv.engineStep_completes {s : State} (h : s.Inv) (hb : s.status.busy = true) :
    ∃ r, Machine.engineStep s = .next (s.complete r) := by
  rcases engineStep_answers s with ⟨t, hx⟩ | hstop
  · obtain ⟨r, rfl⟩ := engineStep_next_complete hx
    exact ⟨r, hx⟩
  · exact absurd ((engineStep_fault_iff s).mp hstop) (h.input hb)

theorem State.Inv.engineTurn_answers {s : State} (h : s.Inv) :
    ∃ t, Machine.engineTurn s = .next t := by
  cases hb : s.status.busy with
  | false => exact ⟨s, engineTurn_of_not_busy hb⟩
  | true =>
    obtain ⟨r, hx⟩ := h.engineStep_completes hb
    exact ⟨_, (engineTurn_of_busy hb).trans hx⟩

/-- Under the invariant a transition answers, or is the `CMD` write of an operation on undefined
input. -/
theorem State.Inv.transition_answers {s : State} (h : s.Inv) (e : PortEvent) :
    (∃ t, Machine.transition e s = .next t) ∨
    ∃ v, e = .write 0x0000 v ∧ s.status.busy = false ∧ s.readsUndefined (v.extractLsb' 0 8) ∧
      Machine.transition e s = .fault .undefinedInput := by
  cases e with
  | idle => exact .inl ⟨_, rfl⟩
  | read a => exact .inl ⟨_, rfl⟩
  | write a v =>
    by_cases hstop : a.toNat = 0 ∧ s.status.busy = false ∧ s.readsUndefined (v.extractLsb' 0 8)
    · obtain ⟨ha, hb, hu⟩ := hstop
      obtain rfl : a = 0x0000 := BitVec.eq_of_toNat_eq ha
      exact .inr ⟨v, rfl, hb, hu, (hostWrite_cmd hb v ha).trans (startOperation_of_undefined hu)⟩
    · exact .inl ((hostWrite_answers_iff a v s).mpr hstop)
  | engine => exact .inl h.engineTurn_answers
  | reset => exact .inl ⟨_, rfl⟩

/-- Settles O60: the invariant holds in every reachable state and as each cycle begins. -/
theorem startedOperationsComplete : Obligations.StartedOperationsComplete := by
  intro s hs
  refine ⟨fun hb => ?_, ?_⟩
  · obtain ⟨r, hx⟩ := hs.inv.engineStep_completes hb
    exact ⟨_, hx, s.complete_done r, s.complete_busy r⟩
  · obtain ⟨e, rest, hstep, hsched⟩ := step_eq s
    rw [hstep]
    rcases (hs.inv.beginCycle rest).transition_answers e with hnext | ⟨v, rfl, hb, hu, hx⟩
    · exact .inl hnext
    · rcases hsched with hsched | ⟨-, he, -⟩
      · exact .inr ⟨v, rest, hsched, hb, hu, hx⟩
      · cases he

end Sys2Proof.Machine

/-! PROOFS. The canonical host sequence (R203): the run of each statement of R81 that it is made of,
from the events which the statement stands for. The obligation puts the three runs one behind the
other. -/

namespace Sys2Proof.Machine

/-! ### Loading the input (R81) -/

theorem ibufIndex_toNat {i : Nat} (h : i < 4096) : (ibufIndex i).toNat = 0x1000 + i := by
  rw [ibufIndex, BitVec.toNat_ofNat]
  omega

theorem extractLsb'_setWidth_byte (b : Byte) : (b.setWidth 32).extractLsb' 0 8 = b := by
  refine BitVec.eq_of_toNat_eq ?_
  simp [b.isLt]

/-- The host writes in ascending order and `writeRun` in descending: the contents are the same
(R58). -/
theorem Memory.readByte_writeRun_writeByte (m : Memory) (i : Nat) (b : Byte) (bs : List Byte) :
    ((m.writeByte i b).writeRun (i + 1) bs).readByte = (m.writeRun i (b :: bs)).readByte := by
  funext k
  simp only [writeRun, readByte_writeRun, readByte_writeByte]
  by_cases hk : k = i
  · rw [if_neg (by omega), if_pos hk, if_pos hk]
  · rw [if_neg hk, if_neg hk]

/-- The step of a state that is not busy and writes an `IBUF` entry next. -/
theorem step_write_ibuf {s : State} {i : Nat} {b : Byte} {rest : List PortEvent}
    (hb : s.status.busy = false) (hi : i < s.cfg.inCap)
    (hs : s.schedule = .write (ibufIndex i) (b.setWidth 32) :: rest) :
    step s = .next { beginCycle s rest with ibuf := s.ibuf.writeByte i b } := by
  have ha := ibufIndex_toNat (Nat.lt_of_lt_of_le hi s.cfg.inCap_max)
  have hw := hostWrite_ibuf (s := beginCycle s rest) hb (b.setWidth 32) hi ha
  rw [extractLsb'_setWidth_byte] at hw
  exact (step_of_schedule s _ _ hs).trans hw

/-- The step of a state that is not busy and writes `IN_LEN` next. -/
theorem step_write_inLen {s : State} {v : Data} {rest : List PortEvent}
    (hb : s.status.busy = false) (hs : s.schedule = .write 0x0001 v :: rest) :
    step s = .next { beginCycle s rest with inLen := v } :=
  (step_of_schedule s _ _ hs).trans
    (hostWrite_inLen (s := beginCycle s rest) (a := 0x0001) hb v rfl)

theorem runSteps_loadFrom (input : List Byte) (i : Nat) (rest : List PortEvent) (s : State)
    (hb : s.status.busy = false) (hcap : i + input.length ≤ s.cfg.inCap)
    (hs : s.schedule = loadFrom i input ++ rest) :
    ∃ m v, m.readByte = (s.ibuf.writeRun i input).readByte ∧
      runSteps (loadFrom i input).length s =
        .next { s with ibuf := m, schedule := rest, hRdata := v } := by
  induction input generalizing i s with
  | nil => exact ⟨s.ibuf, s.hRdata, rfl, by subst hs; rfl⟩
  | cons b bs ih =>
    rw [List.length_cons] at hcap
    have hstep := step_write_ibuf hb (by omega) hs
    obtain ⟨m, v, hm, hrun⟩ :=
      ih (i + 1) { beginCycle s (loadFrom (i + 1) bs ++ rest) with ibuf := s.ibuf.writeByte i b }
        hb (by simp only [beginCycle_cfg]; omega) rfl
    exact ⟨m, v, hm.trans (s.ibuf.readByte_writeRun_writeByte i b bs),
      (runSteps_succ _ s _ hstep).trans hrun⟩

/-- The state in which `IBUF` is `m` and `IN_LEN` the length of `input`. -/
def State.withInput (s : State) (m : Memory) (input : List Byte) : State :=
  { s with ibuf := m, inLen := BitVec.ofNat 32 input.length }

/-- The run of `in`: the entries from index 0, then `IN_LEN`. -/
theorem runSteps_load {s : State} {input : List Byte} {rest : List PortEvent}
    (hb : s.status.busy = false) (hcap : input.length ≤ s.cfg.inCap)
    (hs : s.schedule = (Stmt.load input).events ++ rest) :
    ∃ m, m.readByte = (s.ibuf.writeRun 0 input).readByte ∧
      runSteps (Stmt.load input).events.length s =
        .next ((beginCycle s rest).withInput m input) := by
  rw [Stmt.events, List.append_assoc] at hs
  obtain ⟨m, v, hm, hrun⟩ := runSteps_loadFrom input 0 _ s hb (by omega) hs
  refine ⟨m, hm, ?_⟩
  rw [Stmt.events, List.length_append, runSteps_add _ _ s _ hrun]
  exact runSteps_succ 0 _ _ (step_write_inLen hb rfl)

/-- What has been loaded is the input that an operation takes. -/
theorem State.withInput_inputIs {s : State} {m : Memory} {input : List Byte}
    (hcap : input.length ≤ s.cfg.inCap)
    (hm : m.readByte = (s.ibuf.writeRun 0 input).readByte) :
    (s.withInput m input).inputIs input := by
  have hmax := s.cfg.inCap_max
  constructor
  · rw [inCount, withInput, BitVec.toNat_ofNat]
    omega
  · intro k hk
    rw [withInput, hm, Memory.readByte_writeRun, if_pos (by omega), Nat.sub_zero]

theorem State.inputIs.inputDefined {s : State} {input : List Byte} (h : s.inputIs input) :
    s.inputDefined := by
  obtain ⟨hlen, hread⟩ := h
  intro k hk
  rw [← hlen] at hk
  rw [hread k hk, List.getElem?_eq_getElem hk, Option.isSome_some]

/-! ### Starting the operation (R40, R81) -/

theorem not_readsUndefined_of_inputDefined {s : State} (c : Byte) (h : s.inputDefined) :
    ¬s.readsUndefined c := by
  rintro (⟨_, _, _, _, _, k, hk, hnone⟩ | ⟨_, _, _, _, _, _, k, hk, hnone⟩) <;>
    exact absurd (h k hk) (by simp [hnone])

/-- The run of an operation's statement: its start alone. -/
theorem runSteps_run {s : State} {i : Instr} {rest : List PortEvent}
    (hb : s.status.busy = false) (hin : s.inputDefined)
    (hs : s.schedule = (Stmt.run i).events ++ rest) :
    runSteps (Stmt.run i).events.length s =
      .next ((beginCycle s rest).start (encodeByte i)) := by
  have hw := hostWrite_cmd_of_defined (s := beginCycle s rest) hb ((encodeByte i).setWidth 32)
    (not_readsUndefined_of_inputDefined _ hin)
  rw [extractLsb'_setWidth_byte] at hw
  exact runSteps_succ 0 s _ ((step_of_schedule s _ rest hs).trans hw)

/-! ### Polling to the completion (R41, R81) -/

/-- The step of a state that reads `STATUS` next. -/
theorem step_read_status {s : State} {rest : List PortEvent}
    (hs : s.schedule = .read 0x0003 :: rest) :
    step s = .next { s with schedule := rest, hRdata := s.status.word } := by
  rw [step_of_schedule s _ _ hs, transition, hostRead, locationOf_status _ rfl]
  rfl

/-- The run of `wait`: the polls before the completion are inert, and the one after it reads the
`STATUS` which the completion has left. -/
theorem runSteps_wait {s : State} {i : Instr} {polls : Nat} {rest : List PortEvent}
    (hb : s.status.busy = true) (hi : decodeByte s.cmd = .instr i)
    (hs : s.schedule = (Stmt.wait polls).events ++ rest) :
    ∃ n, ∀ t,
      exec i { s with schedule := .read 0x0003 :: rest, hRdata := 0, draws := n } = .next t →
      runSteps (Stmt.wait polls).events.length s =
        .next { t with schedule := rest, hRdata := t.status.word } := by
  rw [Stmt.events, List.append_assoc] at hs
  obtain ⟨v, n, hpolls⟩ := runSteps_of_busy (List.replicate polls (.read 0x0003)) _ s hb
    (fun e he => by rw [List.eq_of_mem_replicate he]; exact ⟨nofun, nofun⟩) hs
  refine ⟨n, fun t ht => ?_⟩
  have hengine := (stepRunsTheDecodedOperation
    { s with schedule := .engine :: .read 0x0003 :: rest, hRdata := v, draws := n } i _ hb hi
    (.inl rfl)).trans ht
  obtain ⟨r, rfl⟩ := exec_next_is_completion i _ t ht
  rw [Stmt.events, List.length_append, runSteps_add _ _ s _ hpolls]
  exact (runSteps_succ 1 _ _ hengine).trans
    (runSteps_succ 0 _ _ (step_read_status (State.complete_schedule _ r)))

/-! ### The sequence (R203) -/

/-- Settles O59: the loaded input is defined, so the command starts, and until the engine moves the
polls change the pin and the model's own fields alone. -/
theorem hostSequenceRunsOperation : Obligations.HostSequenceRunsOperation := by
  intro s i input polls rest hb hcap hs
  simp only [scriptEvents, List.flatMap_cons, List.flatMap_nil, List.append_nil,
    List.append_assoc, List.length_append] at hs ⊢
  obtain ⟨m, hm, hload⟩ := runSteps_load hb hcap hs
  have hin := State.withInput_inputIs hcap hm
  have hrun := runSteps_run (i := i) (rest := (Stmt.wait polls).events ++ rest)
    (s := (beginCycle s _).withInput m input) hb hin.inputDefined rfl
  obtain ⟨n, hwait⟩ := runSteps_wait (polls := polls) (rest := rest)
    (s := (beginCycle _ _).start (encodeByte i)) rfl (decodeByte_encodeByte i) rfl
  refine ⟨{ (s.withInput m input).start (encodeByte i) with
    schedule := .read 0x0003 :: rest, hRdata := 0, draws := n }, hin, rfl, rfl, rfl, fun k hk => ?_,
    fun t ht => ?_⟩
  · exact (congrFun hm k).trans ((Memory.readByte_writeRun _ _ _ _).trans (if_neg (by omega)))
  · rw [runSteps_add _ _ s _ hload, runSteps_add _ _ _ _ hrun]
    exact hwait t ht

end Sys2Proof.Machine
